-- ==== Sys2Proof/Word.lean ====
section
/-! DEFINITION. The widths the spec calls byte and word (00_scope.md R11), and the 4-bit sample and pixel value. -/

namespace Sys2Proof

/-- A 4-bit value: a pixel of a tile (R157) or an ADPCM sample (R190). -/
abbrev Nibble := BitVec 4

/-- 8 bits (R11). -/
abbrev Byte := BitVec 8

/-- 16 bits (R11): a word of a bank, of the tile source or of the frame buffer. -/
abbrev Word := BitVec 16

end Sys2Proof
end

