-- ==== Sys2Proof/Syntax.lean ====
section
/-! DEFINITION. The instructions: one constructor for each row of spec/opcode_table.json, with the operands the spec
gives the row; and the forms in which the spec writes them (30_encoding.md). Bits a form ignores (R98) are no operand. -/

namespace Sys2Proof

/-- The operations of the block. The five DMA commands are interpreted from a bank (R90 to R102); the others are port
operations (R104), window accesses (R105) and events (R106). -/
inductive Instr where
  /-- NOP, an unused slot (R153) -/
  | nop
  /-- TILE_O, opaque tile draw (R154). The counts are the encoded ones: tiles less one (R92, R93). -/
  | tileO (code : BitVec 13) (x : BitVec 9) (wenc : BitVec 5) (y : BitVec 9) (henc : BitVec 5) (col : Byte)
  /-- TILE_T, transparent tile draw (R155) -/
  | tileT (code : BitVec 13) (x : BitVec 9) (wenc : BitVec 5) (y : BitVec 9) (henc : BitVec 5) (col : Byte)
  /-- FILL_PIX, fill the pixel plane (R161) -/
  | fillPix (x : BitVec 9) (wenc : BitVec 5) (y : BitVec 9) (henc : BitVec 5) (col : Byte)
  /-- FILL_PAL, fill the palette plane (R162) -/
  | fillPal (x : BitVec 9) (wenc : BitVec 5) (y : BitVec 9) (henc : BitVec 5) (col : Byte)
  /-- DMA_START (R120) -/
  | dmaStart
  /-- DMA_STOP (R124) -/
  | dmaStop
  /-- DMA_STATUS, a read (R131) -/
  | dmaStatus
  /-- ADPCM0_START (R195) -/
  | adpcm0Start
  /-- ADPCM0_STOP (R196) -/
  | adpcm0Stop
  /-- ADPCM0_ADDR_LO (R200) -/
  | adpcm0AddrLo (d : Byte)
  /-- ADPCM0_ADDR_HI (R201) -/
  | adpcm0AddrHi (d : Byte)
  /-- ADPCM1_START (R197) -/
  | adpcm1Start
  /-- ADPCM1_STOP (R198) -/
  | adpcm1Stop
  /-- WIN_WRITE (R129) -/
  | winWrite (i : BitVec 13) (be : BitVec 2) (d : Word)
  /-- WIN_READ (R130) -/
  | winRead (i : BitVec 13)
  /-- TIMER_FIRE (R127) -/
  | timerFire
  /-- GEN0_VCK (R206) -/
  | gen0Vck
  /-- CTC_TO with the new level (R207) -/
  | ctcTo (l : Bool)
  /-- RESET (R250) -/
  | reset
deriving DecidableEq, Repr

/-- An input event of R41 as the spec encodes it: a port access by selector (R104), a window access as an operand tuple
or an index (R105), an event by its selector (R106). -/
inductive InputWord where
  | portWrite (sel : BitVec 4) (d : Byte)
  | portRead (sel : BitVec 4)
  | winWrite (tuple : BitVec 31)
  | winRead (i : BitVec 13)
  | event (sel : BitVec 3)
deriving DecidableEq, Repr

/-- An encoded instruction: the four words of a slot (R90) or an input event. -/
inductive Encoded where
  | command (attr xword yword cword : Word)
  | input (w : InputWord)
deriving DecidableEq, Repr

/-- The five kinds of command word (R96). -/
inductive CmdKind where
  | nop
  | tileO
  | tileT
  | fillPix
  | fillPal
deriving DecidableEq, Repr

end Sys2Proof
end

