-- ==== Sys2Proof/WellFormed.lean ====
section
/-! DEFINITION. Which instructions the spec's encodings can spell. The operands' widths are in their types; the one check
left is R107's: a window write has at least one byte enabled. -/

namespace Sys2Proof

/-- `be` = 0b00 spells no operation (R105, R107). -/
def byteEnabled (be : BitVec 2) : Bool := be != 0

/-- The instruction has an encoding. -/
def Instr.wellFormed : Instr → Bool
  | .winWrite _ be _ => byteEnabled be
  | .nop => true
  | .tileO _ _ _ _ _ _ => true
  | .tileT _ _ _ _ _ _ => true
  | .fillPix _ _ _ _ _ => true
  | .fillPal _ _ _ _ _ => true
  | .dmaStart => true
  | .dmaStop => true
  | .dmaStatus => true
  | .adpcm0Start => true
  | .adpcm0Stop => true
  | .adpcm0AddrLo _ => true
  | .adpcm0AddrHi _ => true
  | .adpcm1Start => true
  | .adpcm1Stop => true
  | .winRead _ => true
  | .timerFire => true
  | .gen0Vck => true
  | .ctcTo _ => true
  | .reset => true

end Sys2Proof
end

