-- ==== Sys2Proof/Decode.lean ====
section
/-! DEFINITION. Decoding, total on every encoded form and rejecting by name (30_encoding.md R90 to R107); after it the
encoder (R102, R104 to R106), and the framing that lays out a word of spec/opcode_table.json (notes/assumptions 10). -/

namespace Sys2Proof

/-- Why an input spells no operation (R106, R107). -/
inductive Reject where
  /-- a port access with a selector in 0x9..0xF -/
  | undefinedPort (sel : BitVec 4)
  /-- a read of a write-only port -/
  | readOfWriteOnlyPort (sel : BitVec 4)
  /-- a write to DMA_STATUS -/
  | writeOfStatusPort
  /-- a window write with `be` = 0b00 -/
  | windowWriteWithoutByteEnable
  /-- an event selector in 0b101..0b111 -/
  | undefinedEvent (sel : BitVec 3)
deriving DecidableEq, Repr

/-! The fields of a command's words (R91 to R94). -/

def attrCode (attr : Word) : BitVec 13 := attr.extractLsb' 0 13
def attrClr (attr : Word) : Bool := attr.getLsbD 13
def attrTgt (attr : Word) : Bool := attr.getLsbD 14
def attrTrn (attr : Word) : Bool := attr.getLsbD 15
/-- `X` of `xword`, `Y` of `yword` -/
def coordField (w : Word) : BitVec 9 := w.extractLsb' 0 9
/-- `WENC` of `xword`, `HENC` of `yword` -/
def countField (w : Word) : BitVec 5 := w.extractLsb' 11 5
/-- `COL` of `cword` -/
def colourField (cword : Word) : Byte := cword.extractLsb' 0 8

/-- R96: the kind of a command; the first line that matches wins. -/
def classify (attr : Word) : CmdKind :=
  if attr = 0 then .nop
  else if attrClr attr = false then
    if attrTrn attr = false then .tileO else .tileT
  else if attrTgt attr = false then .fillPix
  else .fillPal

/-- The command a slot's four words spell. No word is illegal (R98). -/
def decodeCommand (attr xword yword cword : Word) : Instr :=
  match classify attr with
  | .nop => .nop
  | .tileO =>
    .tileO (attrCode attr) (coordField xword) (countField xword) (coordField yword) (countField yword) (colourField cword)
  | .tileT =>
    .tileT (attrCode attr) (coordField xword) (countField xword) (coordField yword) (countField yword) (colourField cword)
  | .fillPix =>
    .fillPix (coordField xword) (countField xword) (coordField yword) (countField yword) (colourField cword)
  | .fillPal =>
    .fillPal (coordField xword) (countField xword) (coordField yword) (countField yword) (colourField cword)

/-- A write of `d` to the port `sel` (R104, R107). -/
def decodePortWrite (sel : BitVec 4) (d : Byte) : Except Reject Instr :=
  if sel = 0x0 then .ok .dmaStart
  else if sel = 0x1 then .ok .dmaStop
  else if sel = 0x2 then .error .writeOfStatusPort
  else if sel = 0x3 then .ok .adpcm0Start
  else if sel = 0x4 then .ok .adpcm0Stop
  else if sel = 0x5 then .ok (.adpcm0AddrLo d)
  else if sel = 0x6 then .ok (.adpcm0AddrHi d)
  else if sel = 0x7 then .ok .adpcm1Start
  else if sel = 0x8 then .ok .adpcm1Stop
  else .error (.undefinedPort sel)

/-- A read of the port `sel`: DMA_STATUS is the only readable one (R104, R107). -/
def decodePortRead (sel : BitVec 4) : Except Reject Instr :=
  if sel = 0x2 then .ok .dmaStatus
  else if sel ≤ 0x8 then .error (.readOfWriteOnlyPort sel)
  else .error (.undefinedPort sel)

/-! The fields of a window write's operand tuple, `i` highest (R105). -/

def tupleIndex (t : BitVec 31) : BitVec 13 := t.extractLsb' 18 13
def tupleEnable (t : BitVec 31) : BitVec 2 := t.extractLsb' 16 2
def tupleData (t : BitVec 31) : Word := t.extractLsb' 0 16

/-- A window write (R105, R107). -/
def decodeWinWrite (t : BitVec 31) : Except Reject Instr :=
  if byteEnabled (tupleEnable t) then .ok (.winWrite (tupleIndex t) (tupleEnable t) (tupleData t))
  else .error .windowWriteWithoutByteEnable

/-- An event selector (R106). -/
def decodeEvent (sel : BitVec 3) : Except Reject Instr :=
  if sel = 0b000 then .ok .timerFire
  else if sel = 0b001 then .ok .gen0Vck
  else if sel = 0b010 then .ok (.ctcTo false)
  else if sel = 0b011 then .ok (.ctcTo true)
  else if sel = 0b100 then .ok .reset
  else .error (.undefinedEvent sel)

/-- An input event. -/
def decodeInput : InputWord → Except Reject Instr
  | .portWrite sel d => decodePortWrite sel d
  | .portRead sel => decodePortRead sel
  | .winWrite t => decodeWinWrite t
  | .winRead i => .ok (.winRead i)
  | .event sel => decodeEvent sel

/-- Any encoded form. -/
def decode : Encoded → Except Reject Instr
  | .command attr xword yword cword => .ok (decodeCommand attr xword yword cword)
  | .input w => decodeInput w

/-! The encoder. -/

/-- `((w-1) << 11) | x` (R102). -/
def encodeAxis (enc : BitVec 5) (coord : BitVec 9) : Word := (enc.setWidth 16 <<< 11) ||| coord.setWidth 16

/-- The `attr` of an opaque draw: tile 0 takes the ignored bit 14, so that the slot is no NOP (R99, R102). -/
def encodeOpaqueAttr (code : BitVec 13) : Word := if code = 0 then 0x4000 else code.setWidth 16

/-- R105's operand tuple. -/
def encodeTuple (i : BitVec 13) (be : BitVec 2) (d : Word) : BitVec 31 :=
  (i.setWidth 31 <<< 18) ||| (be.setWidth 31 <<< 16) ||| d.setWidth 31

/-- The words of an instruction: R102 for the commands, with the bits no kind reads written as 0; R104 to R106 for the
others, with the ignored data byte of a port written as 0. -/
def encode : Instr → Encoded
  | .nop => .command 0 0 0 0
  | .tileO code x wenc y henc col =>
    .command (encodeOpaqueAttr code) (encodeAxis wenc x) (encodeAxis henc y) (col.setWidth 16)
  | .tileT code x wenc y henc col =>
    .command (0x8000 ||| code.setWidth 16) (encodeAxis wenc x) (encodeAxis henc y) (col.setWidth 16)
  | .fillPix x wenc y henc col => .command 0x2000 (encodeAxis wenc x) (encodeAxis henc y) (col.setWidth 16)
  | .fillPal x wenc y henc col => .command 0x6000 (encodeAxis wenc x) (encodeAxis henc y) (col.setWidth 16)
  | .dmaStart => .input (.portWrite 0x0 0)
  | .dmaStop => .input (.portWrite 0x1 0)
  | .dmaStatus => .input (.portRead 0x2)
  | .adpcm0Start => .input (.portWrite 0x3 0)
  | .adpcm0Stop => .input (.portWrite 0x4 0)
  | .adpcm0AddrLo d => .input (.portWrite 0x5 d)
  | .adpcm0AddrHi d => .input (.portWrite 0x6 d)
  | .adpcm1Start => .input (.portWrite 0x7 0)
  | .adpcm1Stop => .input (.portWrite 0x8 0)
  | .winWrite i be d => .input (.winWrite (encodeTuple i be d))
  | .winRead i => .input (.winRead i)
  | .timerFire => .input (.event 0b000)
  | .gen0Vck => .input (.event 0b001)
  | .ctcTo l => .input (.event (if l then 0b011 else 0b010))
  | .reset => .input (.event 0b100)

/-! The words of spec/opcode_table.json. The table's rows come in five formats whose bits overlap, and a word of the
table carries no mark of its format; the number of bits names the format (notes/assumptions 10). -/

/-- A port row: the selector in bits [3:0], and the data byte above it where 12 bits are given. Selector 2 is the read
port, every other selector is taken as a write. -/
def tablePort (w : Nat) : InputWord :=
  if BitVec.ofNat 4 w = 0x2 then .portRead 0x2 else .portWrite (BitVec.ofNat 4 w) (BitVec.ofNat 8 (w / 16))

/-- The encoded form of a table word of `nbits` bits: 3 an event, 4 or 8 a port, 12 a port with its data, 13 a window
read, 31 or 32 a window write, 16, 48 or 64 a command whose words above `nbits` are 0. -/
def tableForm (nbits w : Nat) : Option Encoded :=
  if nbits = 3 then some (.input (.event (BitVec.ofNat 3 w)))
  else if nbits = 4 ∨ nbits = 8 then some (.input (tablePort (w % 16)))
  else if nbits = 12 then some (.input (tablePort w))
  else if nbits = 13 then some (.input (.winRead (BitVec.ofNat 13 w)))
  else if nbits = 31 ∨ nbits = 32 then some (.input (.winWrite (BitVec.ofNat 31 w)))
  else if nbits = 16 ∨ nbits = 48 ∨ nbits = 64 then
    some (.command (BitVec.ofNat 16 w) (BitVec.ofNat 16 (w / 2 ^ 16)) (BitVec.ofNat 16 (w / 2 ^ 32))
      (BitVec.ofNat 16 (w / 2 ^ 48)))
  else none

/-- The instruction the decoder reads from a word of spec/opcode_table.json. -/
def decodeTableWord (nbits w : Nat) : Option Instr :=
  match tableForm nbits w with
  | none => none
  | some e =>
    match decode e with
    | .ok i => some i
    | .error _ => none

end Sys2Proof
end

