-- ==== Sys2Proof/Config.lean ====
section
/-! DEFINITION. What is fixed for one launch of the block and is not state (10_state.md R43): the open parameters of
00_scope.md R10, the contents of the ROMs and of a ROM tile source (R29, R30) and the power-on draws (R251). Each is a
constant without a body, so nothing can be proved about it beyond R10's allowed values (notes/assumptions 4, 5, 6, 14, 15,
17). -/

namespace Sys2Proof

/-- One of the two command banks (R26). -/
inductive BankId where
  | bank0
  | bank1
deriving DecidableEq, Repr

/-- One of the two ADPCM channels, numbered from 0 (R16). -/
inductive Chan where
  | ch0
  | ch1
deriving DecidableEq, Repr

/-- The writable memories of R60. The ROMs, and the words of the tile source that are ROM, are configuration (R29, R30,
R43). -/
inductive Space where
  | bank (b : BankId)
  | frameBuffer
  | tileSource
deriving DecidableEq, Repr

/-- A byte of the two words of a tile row (R63). -/
inductive PlaneByte where
  | w0hi
  | w0lo
  | w1hi
  | w1lo
deriving DecidableEq, Repr, Inhabited

/-- `TILE_PLANE_MAP`: the byte that holds each bit plane (R10, R157). -/
structure PlaneMap where
  b1 : PlaneByte
  b2 : PlaneByte
  b3 : PlaneByte
  b4 : PlaneByte
deriving DecidableEq, Repr

/-- The map is one to one, hence a bijection of the four planes and the four bytes (R10). -/
abbrev PlaneMap.Bijective (m : PlaneMap) : Prop := [m.b1, m.b2, m.b3, m.b4].Nodup

/-- `TILE_PIXEL_ORDER` (R10, R157). -/
inductive PixelOrder where
  | lsbFirst
  | msbFirst
deriving DecidableEq, Repr, Inhabited

/-- `BUSY_HAZARD_POLICY` (R10, R263). -/
inductive HazardPolicy where
  | atomic
  | fault
deriving DecidableEq, Repr, Inhabited

/-- What `ADDR_MAP` gives a host address (R10, R74): each of the nine ports, the DMA window, the frame buffer and the tile
source. -/
inductive MapItem where
  | port (sel : Fin 9)
  | window
  | frameBuffer
  | tileSource
deriving DecidableEq, Repr

/-- Every item of the map. -/
def MapItem.all : List MapItem :=
  [.port 0, .port 1, .port 2, .port 3, .port 4, .port 5, .port 6, .port 7, .port 8, .window, .frameBuffer, .tileSource]

/-- How many host addresses an item takes, from its own address on: a port one, a memory one for each byte (R60, R61,
R104). -/
def MapItem.bytes (fbBytes tileSrcWords : Nat) : MapItem → Nat
  | .port _ => 1
  | .window => 0x4000
  | .frameBuffer => fbBytes
  | .tileSource => 2 * tileSrcWords

/-- No two items meet: the decidable form of an injective map (`Laws/Config.lean`). -/
abbrev MapItem.Separate (extent base : MapItem → Nat) : Prop :=
  ∀ i ∈ MapItem.all, ∀ j ∈ MapItem.all, i ≠ j → base i + extent i ≤ base j ∨ base j + extent j ≤ base i

/-- Everything a launch fixes. The model's operations take it as an argument (R10); the machine runs under
`Config.launch`, of which nothing is known but `Launch.Allowed`. -/
structure Launch where
  /-- `FB_BYTES` -/
  fbBytes : Nat
  /-- `TILE_SRC_WORDS` -/
  tileSrcWords : Nat
  /-- `TILE_PLANE_MAP` -/
  planeMap : PlaneMap
  /-- `TILE_PIXEL_ORDER` -/
  pixelOrder : PixelOrder
  /-- `COUNT_TRANSPARENT_SKIPS` -/
  countTransparentSkips : Bool
  /-- `DMA_CLK_PERIOD`, in whole units of time (notes/assumptions 6) -/
  dmaClkPeriod : Nat
  /-- `ROM0_BYTES` and `ROM1_BYTES` -/
  romBytes : Chan → Nat
  /-- `BUSY_HAZARD_POLICY` -/
  busyHazardPolicy : HazardPolicy
  /-- `ADDR_MAP`: the host address at which each item begins (R10, R61, notes/assumptions 14) -/
  addrMap : MapItem → Nat
  /-- the contents of `ROM0` and `ROM1` (R30) -/
  rom : Chan → Nat → Byte
  /-- the contents of a word of the tile source that is ROM; none for a word that is RAM (R29, R43, notes/assumptions
  15) -/
  tileRom : Nat → Option Word
  /-- what a byte that nothing has written holds (R251) -/
  powerOn : Space → Nat → Byte

/-- How many host addresses an item takes under a launch. -/
def Launch.extent (L : Launch) : MapItem → Nat := MapItem.bytes L.fbBytes L.tileSrcWords

/-- The allowed values of R10. -/
structure Launch.Allowed (L : Launch) : Prop where
  fbBytes : ∃ k, 1 ≤ k ∧ L.fbBytes = 2 ^ k
  tileSrcWords : ∃ k, 4 ≤ k ∧ L.tileSrcWords = 2 ^ k
  planeMap : L.planeMap.Bijective
  dmaClkPeriod : 0 < L.dmaClkPeriod
  rom0Bytes : ∃ k, k ≤ 21 ∧ L.romBytes .ch0 = 2 ^ k
  rom1Bytes : ∃ k, 13 ≤ k ∧ k ≤ 21 ∧ L.romBytes .ch1 = 2 ^ k
  /-- `ADDR_MAP` is injective: no two ports or bytes of the block share a host address -/
  addrMap : ∀ i j a b, a < L.extent i → b < L.extent j → L.addrMap i + a = L.addrMap j + b → i = j ∧ a = b

namespace Config

/-! The free values. None has a body. -/

opaque fbSizeExponent : Nat
opaque tileSrcSizeExponent : Nat
opaque rom0SizeExponent : Nat
opaque rom1SizeExponent : Nat
/-- Which byte holds b1, which of the remaining three holds b2, which of the remaining two holds b3. -/
opaque planeChoice : Fin 4 × Fin 3 × Fin 2
opaque pixelOrder : PixelOrder
opaque countTransparentSkips : Bool
opaque dmaClkPeriodLessOne : Nat
opaque busyHazardPolicy : HazardPolicy
/-- The host addresses, as drawn: `addrMapOf` keeps them where they are one to one. -/
opaque addrMapDraw : MapItem → Nat
opaque romByte : Chan → Nat → Byte
opaque tileRomWord : Nat → Option Word
opaque powerOnByte : Space → Nat → Byte

/-- Every one to one plane map is `planeMapOf` of some choice (`Laws/Config.lean`). -/
def planeMapOf (c : Fin 4 × Fin 3 × Fin 2) : PlaneMap :=
  let bytes : List PlaneByte := [.w0hi, .w0lo, .w1hi, .w1lo]
  let b1 := bytes.getD c.1.val default
  let without1 := bytes.erase b1
  let b2 := without1.getD c.2.1.val default
  let without2 := without1.erase b2
  let b3 := without2.getD c.2.2.val default
  { b1 := b1, b2 := b2, b3 := b3, b4 := (without2.erase b3).getD 0 default }

/-- The items one after another from address 0: an injective map. -/
def inOrder (extent : MapItem → Nat) : MapItem → Nat
  | .port sel => sel.val
  | .window => 9
  | .frameBuffer => 9 + extent .window
  | .tileSource => 9 + extent .window + extent .frameBuffer

/-- The injective maps are exactly the values of this function (`Laws/Config.lean`): it keeps an injective draw, and
answers an injective map for any other. -/
def addrMapOf (extent draw : MapItem → Nat) : MapItem → Nat :=
  if MapItem.Separate extent draw then draw else inOrder extent

/-- The launch the machine runs under. Every size of R10 is reached by some exponent, and no other. -/
def launch : Launch where
  fbBytes := 2 ^ (1 + fbSizeExponent)
  tileSrcWords := 2 ^ (4 + tileSrcSizeExponent)
  planeMap := planeMapOf planeChoice
  pixelOrder := pixelOrder
  countTransparentSkips := countTransparentSkips
  dmaClkPeriod := 1 + dmaClkPeriodLessOne
  romBytes := fun
    | .ch0 => 2 ^ (rom0SizeExponent % 22)
    | .ch1 => 2 ^ (13 + rom1SizeExponent % 9)
  busyHazardPolicy := busyHazardPolicy
  addrMap := addrMapOf (MapItem.bytes (2 ^ (1 + fbSizeExponent)) (2 ^ (4 + tileSrcSizeExponent))) addrMapDraw
  rom := romByte
  tileRom := tileRomWord
  powerOn := powerOnByte

end Config

end Sys2Proof
end

