-- ==== Sys2Proof/Machine/State.lean ====
section
/-! DEFINITION. Everything the spec gives the machine (10_state.md), as plain data, with the reasons a step can stop and
the state after reset (70_reset_and_hazards.md R250). A 1-bit register is a `Bool`, true for 1. -/

namespace Sys2Proof.Machine

/-- A memory: (byte address, byte) pairs with strictly rising addresses, an address listed when something has written
it. -/
abbrev Memory := List Host.Cell

/-- What an unlisted address holds: no value. Reading it gives the free draw of R251 (`readByte`, notes/assumptions 4). -/
abbrev Memory.unlisted : Option Byte := none

/-- The canonical form: addresses strictly rising. No entry can equal what an unlisted address holds, which is no value,
so two memories that hold the same bytes are the same list. -/
abbrev Memory.wf (m : Memory) : Prop := m.Pairwise fun a b => a.1 < b.1

/-- An ADPCM channel (R31 to R33). -/
structure Channel where
  /-- `rom_pointer`, 21 bits (R31) -/
  romPointer : BitVec 21
  /-- `nibble_phase`: false selects the high nibble (R32) -/
  nibblePhase : Bool
  /-- `held`: the channel's reset state (R33) -/
  held : Bool
deriving DecidableEq, Repr

/-- An output event (R45). -/
inductive Output where
  /-- `Nib(c, v)` to sample sink c -/
  | nib (c : Chan) (v : Nibble)
  /-- `Rst(c, l)` to generator c's reset line -/
  | rst (c : Chan) (l : Bool)
  /-- `Vck1(l)` to generator 1's clock input -/
  | vck1 (l : Bool)
  /-- `Sched(d)` to the scheduler -/
  | sched (d : Nat)
  /-- `Cancel` to the scheduler -/
  | cancel
deriving DecidableEq, Repr

/-- Which lanes of a word an access of the host covers: a word, or its high or low byte (R61, R81). -/
inductive Lanes where
  | both
  | high
  | low
deriving DecidableEq, Repr

/-- The host's own access to the frame buffer or the tile source, by word index (R42). -/
inductive HostAccess where
  | fbRead (p : Nat) (l : Lanes)
  | fbWrite (p : Nat) (l : Lanes) (d : Word)
  | tsRead (i : Nat) (l : Lanes)
  | tsWrite (i : Nat) (l : Lanes) (d : Word)
deriving DecidableEq, Repr

/-- The `n` of a host access by address: 1 byte or 2 (R12). -/
inductive Width where
  | byte
  | word
deriving DecidableEq, Repr

/-- `MemRead(addr, n)` and `MemWrite(addr, n, v)` of R12. -/
inductive BusAccess where
  | read (addr : Nat) (n : Width)
  | write (addr : Nat) (n : Width) (v : Word)
deriving DecidableEq, Repr

/-- One delivered input: an event of R41, the host agent's own memory access (R42), or a host access by address (R12). -/
inductive Input where
  | op (w : InputWord)
  | mem (a : HostAccess)
  | bus (a : BusAccess)
deriving DecidableEq, Repr

/-- The `info` of a `Defect`: the rule and the event (R231). -/
inductive DefectInfo where
  /-- R127, `TimerFire` with no pending event -/
  | timerFireWithNothingPending
  /-- R211, the channel-1 pointer is outside 0..0x1FFF when the event arrives -/
  | channel1PointerOutOfRange (event : Input)
deriving DecidableEq, Repr

/-- Why the machine stops: exactly these two (R232). -/
inductive Fault where
  /-- `Defect(info)` (R231): raised by `execTimerFire` and by the check before every delivered event. Safe: the spec
  names both, and nothing is claimed of a run that reaches one. -/
  | defect (info : DefectInfo)
  /-- `BusyHazard` (R263): raised by `hostAccess` while busy under the policy `FAULT`. Safe: it errs toward
  unprovable. -/
  | busyHazard
deriving DecidableEq, Repr

/-- Inputs the model gives no meaning (R107). Each is safe: a claim about a run that issues one cannot be proved. -/
inductive Refusal where
  /-- an instruction that has no meaning yet, by its mnemonic in spec/opcode_table.json -/
  | notModelled (mnemonic : String)
  /-- R107: a port access with a selector in 0x9..0xF; raised by the decoder -/
  | undefinedPort (sel : BitVec 4)
  /-- R107: a read of a write-only port; raised by the decoder -/
  | readOfWriteOnlyPort (sel : BitVec 4)
  /-- R107: a write to DMA_STATUS; raised by the decoder -/
  | writeOfStatusPort
  /-- R107: a window write with `be` = 0b00; raised by the decoder and by `execWinWrite` -/
  | windowWriteWithoutByteEnable
  /-- R106: an event selector in 0b101..0b111; raised by the decoder -/
  | undefinedEvent (sel : BitVec 3)
deriving DecidableEq, Repr

/-- The machine. -/
@[ext]
structure State where
  /-- R22: the bank the host window reaches -/
  activeBank : BankId
  /-- R23 -/
  busy : Bool
  /-- R24: the count of the last replay -/
  pixelsProcessed : BitVec 32
  /-- R25: the completion event's deadline, a duration measured from its trigger -/
  pending : Option Nat
  /-- R26: bank 0, as bytes, the high byte of word i at 2i (notes/assumptions 16) -/
  bank0 : Memory
  /-- R26: bank 1 -/
  bank1 : Memory
  /-- R28: the frame buffer, by byte address (R65) -/
  fb : Memory
  /-- R29: the RAM words of the tile source, as bytes, the high byte of word i at 2i; a word that is ROM is no state (R43) -/
  ts : Memory
  /-- R31 to R33: channel 0 -/
  ch0 : Channel
  /-- R31 to R33: channel 1 -/
  ch1 : Channel
  /-- R34 -/
  clockToggle : Bool
  /-- R35 -/
  prevClockToggle : Bool
  /-- R36: generator 0's reset line -/
  outReset0 : Bool
  /-- R36: generator 1's reset line -/
  outReset1 : Bool
  /-- R37 -/
  outVck1 : Bool
  /-- R150: the running pixel count of a replay; 0 outside one (notes/assumptions 3) -/
  cnt : BitVec 32
  /-- R17, R45: the output events of the last step, in the order they were emitted (notes/assumptions 2) -/
  outputs : List Output
  /-- what the last step returned to the host, if it was a read (R130, R131, notes/assumptions 2) -/
  reply : Option Word
  /-- the inputs still to be delivered, in the total order of R75 (notes/assumptions 1) -/
  inputs : List Input
deriving DecidableEq, Repr

/-- A channel after reset (R250). -/
def Channel.reset : Channel := { romPointer := 0, nibblePhase := false, held := true }

/-- The machine after reset: R250's table, and nothing written yet in any memory (R251). -/
def State.reset : State where
  activeBank := .bank0
  busy := false
  pixelsProcessed := 0
  pending := none
  bank0 := []
  bank1 := []
  fb := []
  ts := []
  ch0 := Channel.reset
  ch1 := Channel.reset
  clockToggle := false
  prevClockToggle := false
  outReset0 := true
  outReset1 := true
  outVck1 := false
  cnt := 0
  outputs := []
  reply := none
  inputs := []

end Sys2Proof.Machine
end

