-- ==== Sys2Proof/Machine/Ops.lean ====
section
/-! DEFINITION. The named operations over the memories and the registers: byte and word accesses (20_memory.md), output
events and the lines they drive (10_state.md R45), faults (60_exceptions.md R231, R232: the block has no exception entry
and no return, R237, R238). -/

namespace Sys2Proof.Machine

/-! Words and bytes, big-endian (R65, R81). -/

def hiByte (w : Word) : Byte := w.extractLsb' 8 8
def loByte (w : Word) : Byte := w.extractLsb' 0 8
def wordOf (hi lo : Byte) : Word := (hi.setWidth 16 <<< 8) ||| lo.setWidth 16

/-! The memories. -/

/-- The byte listed at an address. -/
def Memory.load? : Memory → Nat → Option Byte
  | [], _ => Memory.unlisted
  | (b, w) :: m, a => if b = a then some w else Memory.load? m a

/-- List `v` at address `a`, keeping the canonical form. -/
def Memory.store : Memory → Nat → Byte → Memory
  | [], a, v => [(a, v)]
  | (b, w) :: m, a, v =>
    if a < b then (a, v) :: (b, w) :: m
    else if a = b then (a, v) :: m
    else (b, w) :: Memory.store m a v

/-- The bank that is not `b`: `b ^ 1` (R120). -/
def otherBank : BankId → BankId
  | .bank0 => .bank1
  | .bank1 => .bank0

/-- The memory of a space. -/
def State.mem (s : State) : Space → Memory
  | .bank .bank0 => s.bank0
  | .bank .bank1 => s.bank1
  | .frameBuffer => s.fb
  | .tileSource => s.ts

/-- The state with the memory of a space replaced. -/
def State.withMem (s : State) (sp : Space) (m : Memory) : State :=
  match sp with
  | .bank .bank0 => { s with bank0 := m }
  | .bank .bank1 => { s with bank1 := m }
  | .frameBuffer => { s with fb := m }
  | .tileSource => { s with ts := m }

/-- The one read of a byte: what was last written there, else the power-on draw (R251). -/
def readByte (L : Launch) (s : State) (sp : Space) (a : Nat) : Byte :=
  ((s.mem sp).load? a).getD (L.powerOn sp a)

/-- The one write of a byte. -/
def writeByte (sp : Space) (a : Nat) (v : Byte) (s : State) : State :=
  s.withMem sp ((s.mem sp).store a v)

/-- The 16-bit word `i` of a space: its high byte lies at the even address `2i` (R61, R65). -/
def readWord (L : Launch) (s : State) (sp : Space) (i : Nat) : Word :=
  wordOf (readByte L s sp (2 * i)) (readByte L s sp (2 * i + 1))

/-- Write the enabled lanes of word `i`: `hi` enables `d[15:8]`, `lo` enables `d[7:0]` (R105). -/
def writeLanes (sp : Space) (i : Nat) (hi lo : Bool) (d : Word) (s : State) : State :=
  let s1 := if hi then writeByte sp (2 * i) (hiByte d) s else s
  if lo then writeByte sp (2 * i + 1) (loByte d) s1 else s1

/-- Word `i` of bank `b` (R26). -/
def bankWord (L : Launch) (s : State) (b : BankId) (i : Nat) : Word := readWord L s (.bank b) i

/-- The word of the tile source an index names; an index past the end wraps (R64). -/
def tsWordIndex (L : Launch) (i : Nat) : Nat := i % L.tileSrcWords

/-- `TSRead(i)` (R64): a word that is ROM holds what the launch gives it, a word that is RAM what State holds (R29, R43). -/
def tsRead (L : Launch) (s : State) (i : Nat) : Word :=
  match L.tileRom (tsWordIndex L i) with
  | some w => w
  | none => readWord L s .tileSource (tsWordIndex L i)

/-- A host write of lanes of word `i` of the tile source: RAM stores it, ROM keeps its contents (R29, R43, notes/assumptions
15). -/
def tsWrite (L : Launch) (i : Nat) (hi lo : Bool) (d : Word) (s : State) : State :=
  match L.tileRom (tsWordIndex L i) with
  | some _ => s
  | none => writeLanes .tileSource (tsWordIndex L i) hi lo d s

/-- `RomRead(c, a)`: an address past the end wraps (R70). -/
def romRead (L : Launch) (c : Chan) (a : Nat) : Byte := L.rom c (a % L.romBytes c)

/-- The masked byte address of the pixel at row `Y` and column `X`, unbounded: `A & (FB_BYTES-1)` with
`A = (Y·512 + X)·2`; `FB_BYTES` is a power of two, so the mask is the remainder (R66). -/
def fbAddr (L : Launch) (Y X : Nat) : Nat := ((Y * 512 + X) * 2) % L.fbBytes

/-- `FBWritePix(Y, X, v)`: the odd byte, the pixel plane (R65, R66). -/
def fbWritePix (L : Launch) (Y X : Nat) (v : Byte) (s : State) : State :=
  writeByte .frameBuffer (fbAddr L Y X + 1) v s

/-- `FBWritePal(Y, X, v)`: the even byte, the palette plane (R65, R66). -/
def fbWritePal (L : Launch) (Y X : Nat) (v : Byte) (s : State) : State :=
  writeByte .frameBuffer (fbAddr L Y X) v s

/-! Registers, outputs and lines. -/

/-- `ch[c]`. -/
def State.chan (s : State) : Chan → Channel
  | .ch0 => s.ch0
  | .ch1 => s.ch1

/-- The state with `ch[c]` replaced. -/
def State.withChan (s : State) (c : Chan) (ch : Channel) : State :=
  match c with
  | .ch0 => { s with ch0 := ch }
  | .ch1 => { s with ch1 := ch }

/-- `Emit(e)` (R12). -/
def emit (e : Output) (s : State) : State := { s with outputs := s.outputs ++ [e] }

/-- A read's answer to the host. -/
def answer (v : Word) (s : State) : State := { s with reply := some v }

/-- Drive generator c's reset line: emit `Rst(c, l)` and write `out_reset[c]` (R45). -/
def driveReset (c : Chan) (l : Bool) (s : State) : State :=
  let s := emit (.rst c l) s
  match c with
  | .ch0 => { s with outReset0 := l }
  | .ch1 => { s with outReset1 := l }

/-- Drive generator 1's clock input: emit `Vck1(l)` and write `out_vck1` (R45). -/
def driveVck1 (l : Bool) (s : State) : State :=
  let s := emit (.vck1 l) s
  { s with outVck1 := l }

/-- Count one pixel (R150). -/
def countPixel (s : State) : State := { s with cnt := s.cnt + 1 }

/-! Faults (R231, R232). -/

/-- `raise Defect(info)` (R12, R231). -/
def raiseDefect (info : DefectInfo) : Host.Outcome State Fault Refusal := .fault (.defect info)

/-- `raise BusyHazard` (R263). -/
def raiseBusyHazard : Host.Outcome State Fault Refusal := .fault .busyHazard

/-- The channel-1 pointer is in 0..0x1FFF (R211). -/
def pointer1InRange (s : State) : Bool := s.ch1.romPointer < 0x2000#21

/-- The refusal that answers an input the decoder rejects (R107). -/
def refusalOf : Reject → Refusal
  | .undefinedPort sel => .undefinedPort sel
  | .readOfWriteOnlyPort sel => .readOfWriteOnlyPort sel
  | .writeOfStatusPort => .writeOfStatusPort
  | .windowWriteWithoutByteEnable => .windowWriteWithoutByteEnable
  | .undefinedEvent sel => .undefinedEvent sel

end Sys2Proof.Machine
end

