-- ==== Sys2Proof/Machine/Operands.lean ====
section
/-! DEFINITION. The operands: how a command's fields become the numbers its rule uses (30_encoding.md R95), the pixel
decode (41_dma_commands.md R157) and the data bits of the address ports (42_adpcm.md R200, R201). -/

namespace Sys2Proof.Machine

/-- The operands of a block of tiles: its corner in pixels, its size in tiles (R95). -/
structure Block where
  x : Nat
  y : Nat
  w : Nat
  h : Nat
deriving DecidableEq, Repr

/-- A count field holds the number of tiles less one: 1..32 (R92, R93, R95). -/
def tilesOf (enc : BitVec 5) : Nat := enc.toNat + 1

/-- `x`, `y`, `w` and `h` of R95. -/
def blockOf (x : BitVec 9) (wenc : BitVec 5) (y : BitVec 9) (henc : BitVec 5) : Block :=
  { x := x.toNat, y := y.toNat, w := tilesOf wenc, h := tilesOf henc }

/-- `basepix = (colour << 4) mod 256` (R95). -/
def basePix (colour : Byte) : Byte := colour <<< 4

/-- A byte of a tile row's two words (R63). -/
def planeByte (w0 w1 : Word) : PlaneByte → Byte
  | .w0hi => hiByte w0
  | .w0lo => loByte w0
  | .w1hi => hiByte w1
  | .w1lo => loByte w1

/-- The bit of a plane byte that belongs to column `q` (R157). -/
def planeBit (o : PixelOrder) (q : Nat) : Nat :=
  match o with
  | .lsbFirst => q
  | .msbFirst => 7 - q

/-- `Pixel(w0, w1, q)` (R157). -/
def pixelOf (L : Launch) (w0 w1 : Word) (q : Nat) : Nibble :=
  let e := planeBit L.pixelOrder q
  let bit := fun p => (BitVec.ofBool ((planeByte w0 w1 p).getLsbD e)).setWidth 4
  (bit L.planeMap.b4 <<< 3) ||| (bit L.planeMap.b3 <<< 2) ||| (bit L.planeMap.b2 <<< 1) ||| bit L.planeMap.b1

/-- `rom_pointer[15:8] <- d` (R200). -/
def patchLow (p : BitVec 21) (d : Byte) : BitVec 21 :=
  (p &&& ~~~0x00FF00#21) ||| (d.setWidth 21 <<< 8)

/-- `rom_pointer[18:16] <- d[2:0]` (R201). -/
def patchHigh (p : BitVec 21) (d : Byte) : BitVec 21 :=
  (p &&& ~~~0x070000#21) ||| ((d.extractLsb' 0 3).setWidth 21 <<< 16)

/-- `rom_pointer & ~0xFF` (R196). -/
def clearLowByte (p : BitVec 21) : BitVec 21 := p &&& ~~~0x0000FF#21

/-- The high nibble of a ROM byte, `v[7:4]` (R190). -/
def highNibble (v : Byte) : Nibble := v.extractLsb' 4 4

/-- The low nibble of a ROM byte, `v[3:0]` (R190). -/
def lowNibble (v : Byte) : Nibble := v.extractLsb' 0 4

end Sys2Proof.Machine
end

