-- ==== Sys2Proof/Machine/Adpcm.lean ====
section
/-! DEFINITION. The ADPCM playback sequencer and the channel-1 clock divider (42_adpcm.md). -/

namespace Sys2Proof.Machine

/-- `Advance(c)`: nothing while held; else one nibble, the high one first, the pointer moving after the low one, modulo
2^21 (R190). -/
def advance (L : Launch) (c : Chan) (s : State) : State :=
  let ch := s.chan c
  let v := romRead L c ch.romPointer.toNat
  if ch.held then s
  else if ch.nibblePhase then
    (emit (.nib c (lowNibble v)) s).withChan c { ch with romPointer := ch.romPointer + 1, nibblePhase := false }
  else (emit (.nib c (highNibble v)) s).withChan c { ch with nibblePhase := true }

/-- `CH1_LOOP` (R9). -/
def ch1Loop : BitVec 21 := 0x2000

/-- `PulsePhase()` (R208). -/
def pulsePhase (s : State) : State := driveVck1 true s

/-- `AdvancePhase()`, with the loop reset (R209). -/
def advancePhase (L : Launch) (s : State) : State :=
  let s := advance L .ch1 s
  if s.ch1.romPointer = ch1Loop then
    driveReset .ch1 false (driveVck1 false (driveReset .ch1 true { s with ch1 := { s.ch1 with romPointer := 0 } }))
  else driveVck1 false s

/-- A qualifying falling edge: a pulse or an advance, and the half-rate toggle flips (R207, R210). -/
def fallingEdge (L : Launch) (s : State) : State :=
  let s := if s.clockToggle then pulsePhase s else advancePhase L s
  { s with clockToggle := !s.clockToggle }

/-- R207 under a launch. -/
def clockLevel (L : Launch) (l : Bool) (s : State) : State :=
  let s := if s.prevClockToggle && !l then fallingEdge L s else s
  { s with prevClockToggle := l }

/-- ADPCM0_START (R195). -/
def execAdpcm0Start (s : State) : Host.Outcome State Fault Refusal :=
  .next (driveReset .ch0 false { s with ch0 := { s.ch0 with held := false } })

/-- ADPCM0_STOP: the phase and the pointer's low byte are cleared (R196, R199). -/
def execAdpcm0Stop (s : State) : Host.Outcome State Fault Refusal :=
  .next (driveReset .ch0 true
    { s with ch0 := { held := true, nibblePhase := false, romPointer := clearLowByte s.ch0.romPointer } })

/-- ADPCM0_ADDR_LO (R200). -/
def execAdpcm0AddrLo (d : Byte) (s : State) : Host.Outcome State Fault Refusal :=
  .next { s with ch0 := { s.ch0 with romPointer := patchLow s.ch0.romPointer d } }

/-- ADPCM0_ADDR_HI (R201). -/
def execAdpcm0AddrHi (d : Byte) (s : State) : Host.Outcome State Fault Refusal :=
  .next { s with ch0 := { s.ch0 with romPointer := patchHigh s.ch0.romPointer d } }

/-- ADPCM1_START: the divider is left as it is (R197). -/
def execAdpcm1Start (s : State) : Host.Outcome State Fault Refusal :=
  .next (driveReset .ch1 false { s with ch1 := { s.ch1 with held := false } })

/-- ADPCM1_STOP: the phase is cleared, the pointer kept whole (R198, R199). -/
def execAdpcm1Stop (s : State) : Host.Outcome State Fault Refusal :=
  .next (driveReset .ch1 true { s with ch1 := { s.ch1 with held := true, nibblePhase := false } })

/-- GEN0_VCK (R206). -/
def execGen0Vck (s : State) : Host.Outcome State Fault Refusal := .next (advance Config.launch .ch0 s)

/-- CTC_TO (R207). -/
def execCtcTo (l : Bool) (s : State) : Host.Outcome State Fault Refusal := .next (clockLevel Config.launch l s)

end Sys2Proof.Machine
end

