-- ==== Sys2Proof/Machine/Commands.lean ====
section
/-! DEFINITION. The five DMA commands: the pixel writer, the tile draw and the fill (41_dma_commands.md R153 to R162). A
command's effect is on the frame buffer and on the running count. -/

namespace Sys2Proof.Machine

/-- One pixel of a tile draw: written and counted, or skipped as transparent (R156, R158). -/
def plotPixel (L : Launch) (trn : Bool) (base : Byte) (Y X : Nat) (pix : Nibble) (s : State) : State :=
  if trn = false ∨ pix ≠ 0 then countPixel (fbWritePix L Y X (base ||| pix.setWidth 8) s)
  else if L.countTransparentSkips then countPixel s
  else s

/-- Row `r` of tile `code`, its columns left to right; `Y` and `X` are where the row begins (R62, R156). -/
def drawRow (L : Launch) (trn : Bool) (base : Byte) (code r Y X : Nat) (s : State) : State :=
  let w0 := tsRead L s (16 * code + 2 * r)
  let w1 := tsRead L s (16 * code + 2 * r + 1)
  (List.range 8).foldl (fun s q => plotPixel L trn base Y (X + q) (pixelOf L w0 w1 q) s) s

/-- One tile, its rows top to bottom; `Y` and `X` are its corner (R156). -/
def drawTile (L : Launch) (trn : Bool) (base : Byte) (code Y X : Nat) (s : State) : State :=
  (List.range 8).foldl (fun s r => drawRow L trn base code r (Y + r) X s) s

/-- The tiles (j, k) of a block in column-major order: j, the horizontal index, is the outer loop (R156). -/
def tileOrder (w h : Nat) : List (Nat × Nat) :=
  (List.range w).flatMap fun j => (List.range h).map fun k => (j, k)

/-- Each tile of a block with its source tile: `code` starts at `code0` and grows by 1 after every tile; it is not
reduced to 13 bits (R156). -/
def tileWalk (code0 w h : Nat) : List ((Nat × Nat) × Nat) := (tileOrder w h).zipIdx code0

/-- `TileDraw` (R156). -/
def tileDraw (L : Launch) (trn : Bool) (code0 : Nat) (b : Block) (colour : Byte) (s : State) : State :=
  (tileWalk code0 b.w b.h).foldl
    (fun s t => drawTile L trn (basePix colour) t.2 (b.y + 8 * t.1.2) (b.x + 8 * t.1.1) s) s

/-- The plane a fill writes (R91, R160). -/
inductive Plane where
  | pixel
  | palette
deriving DecidableEq, Repr

/-- One byte of a fill, written and counted (R160). -/
def fillByte (L : Launch) (tgt : Plane) (Y X : Nat) (colour : Byte) (s : State) : State :=
  match tgt with
  | .pixel => countPixel (fbWritePix L Y X colour s)
  | .palette => countPixel (fbWritePal L Y X colour s)

/-- `Fill`: rows, then columns (R160). -/
def fill (L : Launch) (tgt : Plane) (b : Block) (colour : Byte) (s : State) : State :=
  (List.range (8 * b.h)).foldl
    (fun s r => (List.range (8 * b.w)).foldl (fun s q => fillByte L tgt (b.y + r) (b.x + q) colour s) s) s

/-- NOP: nothing is written and nothing is counted (R153). -/
def execNop (s : State) : Host.Outcome State Fault Refusal := .next s

/-- TILE_O (R154). -/
def execTileO (code : BitVec 13) (x : BitVec 9) (wenc : BitVec 5) (y : BitVec 9) (henc : BitVec 5) (col : Byte)
    (s : State) : Host.Outcome State Fault Refusal :=
  .next (tileDraw Config.launch false code.toNat (blockOf x wenc y henc) col s)

/-- TILE_T (R155). -/
def execTileT (code : BitVec 13) (x : BitVec 9) (wenc : BitVec 5) (y : BitVec 9) (henc : BitVec 5) (col : Byte)
    (s : State) : Host.Outcome State Fault Refusal :=
  .next (tileDraw Config.launch true code.toNat (blockOf x wenc y henc) col s)

/-- FILL_PIX (R161). -/
def execFillPix (x : BitVec 9) (wenc : BitVec 5) (y : BitVec 9) (henc : BitVec 5) (col : Byte) (s : State) :
    Host.Outcome State Fault Refusal :=
  .next (fill Config.launch .pixel (blockOf x wenc y henc) col s)

/-- FILL_PAL (R162). -/
def execFillPal (x : BitVec 9) (wenc : BitVec 5) (y : BitVec 9) (henc : BitVec 5) (col : Byte) (s : State) :
    Host.Outcome State Fault Refusal :=
  .next (fill Config.launch .palette (blockOf x wenc y henc) col s)

end Sys2Proof.Machine
end

