-- ==== Sys2Proof/Machine/Flags.lean ====
section
/-! DEFINITION. The block's only flag, `busy` (10_state.md R23), and the completion event that goes with it
(40_dma_control.md R120, R121, R124, R127, R131). -/

namespace Sys2Proof.Machine

/-- Cancel the outstanding completion event, if there is one (R120, R124). -/
def cancelPending (s : State) : State :=
  match s.pending with
  | none => s
  | some _ => emit .cancel { s with pending := none }

/-- The duration of a completion event: `n × DMA_CLK_PERIOD` (R121). -/
def completionDelay (L : Launch) (n : BitVec 32) : Nat := n.toNat * L.dmaClkPeriod

/-- R120 after the count `n` of the replay is known: the earlier event goes, and a count above 0 sets `busy` and
schedules the completion; a count of 0 clears `busy`. -/
def settleBusy (L : Launch) (n : BitVec 32) (s : State) : State :=
  let s := cancelPending s
  if n = 0 then { s with busy := false }
  else emit (.sched (completionDelay L n)) { s with busy := true, pending := some (completionDelay L n) }

/-- `zext_16(busy)` (R131). -/
def statusWord (s : State) : Word := (BitVec.ofBool s.busy).setWidth 16

end Sys2Proof.Machine
end

