-- ==== Sys2Proof/Machine/Replay.lean ====
section
/-! DEFINITION. The replay scan: every slot of a bank is read and interpreted in increasing address order
(41_dma_commands.md R150 to R152). -/

namespace Sys2Proof.Machine

/-- `SLOTS` = `BANK_WORDS/4` (R9). -/
def slots : Nat := 0x800

/-- What the four words of a slot do (R96, R150). -/
def runWords (L : Launch) (attr xword yword cword : Word) (s : State) : State :=
  let block := blockOf (coordField xword) (countField xword) (coordField yword) (countField yword)
  match classify attr with
  | .nop => s
  | .tileO => tileDraw L false (attrCode attr).toNat block (colourField cword) s
  | .tileT => tileDraw L true (attrCode attr).toNat block (colourField cword) s
  | .fillPix => fill L .pixel block (colourField cword) s
  | .fillPal => fill L .palette block (colourField cword) s

/-- Slot `k` of bank `b`: its words are `bank[b][4k]` to `bank[b][4k+3]` (R90, R150). -/
def replaySlot (L : Launch) (b : BankId) (k : Nat) (s : State) : State :=
  runWords L (bankWord L s b (4 * k)) (bankWord L s b (4 * k + 1)) (bankWord L s b (4 * k + 2))
    (bankWord L s b (4 * k + 3)) s

/-- `Replay(b)`: the count starts at 0, and all `SLOTS` slots are visited (R150, R152). The count is left in `cnt`. -/
def replay (L : Launch) (b : BankId) (s : State) : State :=
  (List.range slots).foldl (fun s k => replaySlot L b k s) { s with cnt := 0 }

end Sys2Proof.Machine
end

