-- ==== Sys2Proof/Machine/DmaControl.lean ====
section
/-! DEFINITION. The DMA control operations (40_dma_control.md): trigger, stop, completion, status. -/

namespace Sys2Proof.Machine

/-- R120 under a launch: flip the bank, replay the bank just left, record its count, settle `busy`. The replay's own
count does not survive the step (R21). -/
def trigger (L : Launch) (s : State) : State :=
  let t := replay L s.activeBank { s with activeBank := otherBank s.activeBank }
  settleBusy L t.cnt { t with pixelsProcessed := t.cnt, cnt := 0 }

/-- DMA_START (R120 to R123). It is never a hazard (R263, notes/assumptions 12). -/
def execDmaStart (s : State) : Host.Outcome State Fault Refusal := .next (trigger Config.launch s)

/-- DMA_STOP (R124). -/
def execDmaStop (s : State) : Host.Outcome State Fault Refusal := .next (cancelPending { s with busy := false })

/-- DMA_STATUS (R131). -/
def execDmaStatus (s : State) : Host.Outcome State Fault Refusal := .next (answer (statusWord s) s)

/-- TIMER_FIRE (R127). -/
def execTimerFire (s : State) : Host.Outcome State Fault Refusal :=
  match s.pending with
  | none => raiseDefect .timerFireWithNothingPending
  | some _ => .next { s with busy := false, pending := none }

end Sys2Proof.Machine
end

