-- ==== Sys2Proof/Machine/ResetEvent.lean ====
section
/-! DEFINITION. The `Reset` event (70_reset_and_hazards.md R250, R251). -/

namespace Sys2Proof.Machine

/-- R250's registers, but for the three lines that its output events write. -/
def resetRegisters (s : State) : State :=
  { s with
    activeBank := .bank0
    busy := false
    pixelsProcessed := 0
    pending := none
    ch0 := Channel.reset
    ch1 := Channel.reset
    clockToggle := false
    prevClockToggle := false }

/-- RESET: `Cancel` if an event is pending, the registers, then the lines; no memory changes (R250, R251). -/
def execReset (s : State) : Host.Outcome State Fault Refusal :=
  .next (driveVck1 false (driveReset .ch1 true (driveReset .ch0 true (resetRegisters (cancelPending s)))))

end Sys2Proof.Machine
end

