-- ==== Sys2Proof/Machine/Window.lean ====
section
/-! DEFINITION. The host's window onto the active bank (40_dma_control.md R129, R130). -/

namespace Sys2Proof.Machine

/-- WIN_WRITE: only the bank the window reaches, only the enabled lanes; no lane enabled is refused (R129, R107). -/
def execWinWrite (i : BitVec 13) (be : BitVec 2) (d : Word) (s : State) : Host.Outcome State Fault Refusal :=
  if byteEnabled be then .next (writeLanes (.bank s.activeBank) i.toNat (be.getLsbD 1) (be.getLsbD 0) d s)
  else .refused .windowWriteWithoutByteEnable

/-- WIN_READ (R130). -/
def execWinRead (i : BitVec 13) (s : State) : Host.Outcome State Fault Refusal :=
  .next (answer (bankWord Config.launch s s.activeBank i.toNat) s)

end Sys2Proof.Machine
end

