-- ==== Sys2Proof/Machine/Dispatch.lean ====
section
/-! DEFINITION. One arm for each constructor of Instr, each a direct call of the instruction's meaning. -/

namespace Sys2Proof.Machine

def exec (i : Instr) (s : State) : Host.Outcome State Fault Refusal :=
  match i with
  -- the DMA commands (41_dma_commands.md)
  | .nop => Sys2Proof.Machine.execNop s
  | .tileO code x wenc y henc col => Sys2Proof.Machine.execTileO code x wenc y henc col s
  | .tileT code x wenc y henc col => Sys2Proof.Machine.execTileT code x wenc y henc col s
  | .fillPix x wenc y henc col => Sys2Proof.Machine.execFillPix x wenc y henc col s
  | .fillPal x wenc y henc col => Sys2Proof.Machine.execFillPal x wenc y henc col s
  -- the DMA control operations (40_dma_control.md)
  | .dmaStart => Sys2Proof.Machine.execDmaStart s
  | .dmaStop => Sys2Proof.Machine.execDmaStop s
  | .dmaStatus => Sys2Proof.Machine.execDmaStatus s
  -- the ADPCM ports (42_adpcm.md)
  | .adpcm0Start => Sys2Proof.Machine.execAdpcm0Start s
  | .adpcm0Stop => Sys2Proof.Machine.execAdpcm0Stop s
  | .adpcm0AddrLo d => Sys2Proof.Machine.execAdpcm0AddrLo d s
  | .adpcm0AddrHi d => Sys2Proof.Machine.execAdpcm0AddrHi d s
  | .adpcm1Start => Sys2Proof.Machine.execAdpcm1Start s
  | .adpcm1Stop => Sys2Proof.Machine.execAdpcm1Stop s
  -- the window (40_dma_control.md)
  | .winWrite idx be d => Sys2Proof.Machine.execWinWrite idx be d s
  | .winRead idx => Sys2Proof.Machine.execWinRead idx s
  -- the events
  | .timerFire => Sys2Proof.Machine.execTimerFire s
  | .gen0Vck => Sys2Proof.Machine.execGen0Vck s
  | .ctcTo l => Sys2Proof.Machine.execCtcTo l s
  | .reset => Sys2Proof.Machine.execReset s

end Sys2Proof.Machine
end

