-- ==== Sys2Proof/Machine/HostBus.lean ====
section
/-! DEFINITION. The host's side: its own accesses to the frame buffer and the tile source (10_state.md R42, 20_memory.md
R75, R81, 70_reset_and_hazards.md R263; notes/assumptions 13), and how ADDR_MAP routes a host access by address (R12, R61,
R74; notes/assumptions 14). -/

namespace Sys2Proof.Machine

def lanesHigh : Lanes → Bool
  | .both => true
  | .high => true
  | .low => false

def lanesLow : Lanes → Bool
  | .both => true
  | .high => false
  | .low => true

/-- What a read of these lanes of a word returns (R81). -/
def selectLanes (l : Lanes) (w : Word) : Word :=
  match l with
  | .both => w
  | .high => (hiByte w).setWidth 16
  | .low => (loByte w).setWidth 16

/-- The host agent meets a blit that may still be drawing, and the policy makes that a fault (R263). -/
def hazard (L : Launch) (s : State) : Bool := s.busy && L.busyHazardPolicy == .fault

/-- The frame-buffer word a host index names; it wraps as every frame-buffer address does (R67, R79). -/
def fbWordIndex (L : Launch) (p : Nat) : Nat := p % (L.fbBytes / 2)

/-- A step of the host agent on its own bus (R42, R75, R263). -/
def hostAccess (L : Launch) (a : HostAccess) (s : State) : Host.Outcome State Fault Refusal :=
  match a with
  | .fbRead p l =>
    if hazard L s then raiseBusyHazard
    else .next (answer (selectLanes l (readWord L s .frameBuffer (fbWordIndex L p))) s)
  | .fbWrite p l d =>
    if hazard L s then raiseBusyHazard
    else .next (writeLanes .frameBuffer (fbWordIndex L p) (lanesHigh l) (lanesLow l) d s)
  | .tsRead i l => .next (answer (selectLanes l (tsRead L s i)) s)
  | .tsWrite i l d =>
    if hazard L s then raiseBusyHazard
    else .next (tsWrite L i (lanesHigh l) (lanesLow l) d s)

/-- What a host access by address turns out to be: an operation of the block, of whose answer the host takes some lanes,
or the host's own memory access. -/
inductive Routed where
  | op (w : InputWord) (l : Lanes)
  | mem (a : HostAccess)
deriving DecidableEq, Repr

/-- The item a host address lies in, and how far into it; none for an address of no item (R74). DESIGN CHOICE: an access of
2 bytes is located by its first address alone, also where its second byte lies in another item or in none, and where only
its second byte lies in an item (notes/assumptions 14). -/
def locate (L : Launch) (addr : Nat) : Option (MapItem × Nat) :=
  (MapItem.all.find? fun i => decide (L.addrMap i ≤ addr ∧ addr < L.addrMap i + L.extent i)).map
    fun i => (i, addr - L.addrMap i)

/-- The lanes an access at a byte offset covers: a byte at an even offset is the high lane; a word is the word that holds
the offset, since no access is misaligned (R61, R65, R71, notes/assumptions 14). -/
def lanesAt (n : Width) (off : Nat) : Lanes :=
  match n with
  | .byte => if off % 2 = 0 then .high else .low
  | .word => .both

/-- `be` for the lanes (R61, R105). -/
def enableOf : Lanes → BitVec 2
  | .both => 0b11
  | .high => 0b10
  | .low => 0b01

/-- Word index `(byte offset) >> 1` of the window (R61). -/
def windowIndex (off : Nat) : BitVec 13 := BitVec.ofNat 13 (off / 2)

/-- The data of a write as a word: a byte stands on both lanes, and the enable picks one (R105). -/
def laneData (n : Width) (v : Word) : Word :=
  match n with
  | .byte => wordOf (loByte v) (loByte v)
  | .word => v

/-- The selector of a port (R104). -/
def portSel (sel : Fin 9) : BitVec 4 := BitVec.ofNat 4 sel.val

/-- What a host keeps of a port it reads: a value read is cut to the width of the read (R11). -/
def portLanes : Width → Lanes
  | .byte => .low
  | .word => .both

/-- What a read of width `n` at an item is. A port is read whole (R39). -/
def routeRead (n : Width) : MapItem × Nat → Routed
  | (.port sel, _) => .op (.portRead (portSel sel)) (portLanes n)
  | (.window, off) => .op (.winRead (windowIndex off)) (lanesAt n off)
  | (.frameBuffer, off) => .mem (.fbRead (off / 2) (lanesAt n off))
  | (.tileSource, off) => .mem (.tsRead (off / 2) (lanesAt n off))

/-- What a write of `v` of width `n` at an item is. A port is 8 bits wide, and a value written is cut to that width (R11,
R39). -/
def routeWrite (n : Width) (v : Word) : MapItem × Nat → Routed
  | (.port sel, _) => .op (.portWrite (portSel sel) (loByte v)) .both
  | (.window, off) => .op (.winWrite (encodeTuple (windowIndex off) (enableOf (lanesAt n off)) (laneData n v))) .both
  | (.frameBuffer, off) => .mem (.fbWrite (off / 2) (lanesAt n off) (laneData n v))
  | (.tileSource, off) => .mem (.tsWrite (off / 2) (lanesAt n off) (laneData n v))

/-- `MemRead` and `MemWrite` through ADDR_MAP (R12, R74); none for an access that does not reach this block. -/
def routeAccess (L : Launch) : BusAccess → Option Routed
  | .read addr n => (locate L addr).map (routeRead n)
  | .write addr n v => (locate L addr).map (routeWrite n v)

end Sys2Proof.Machine
end

