-- ==== Sys2Proof/Machine/Deliver.lean ====
section
/-! DEFINITION. Fetching: how one delivered input becomes the instruction that runs, and how a word of
spec/opcode_table.json is laid where the next step takes it (notes/assumptions 9, 10). -/

namespace Sys2Proof.Machine

/-- A step begins with an empty output list and no answer (R12, R17). -/
def beginStep (s : State) : State := { s with outputs := [], reply := none }

/-- The input `e` is taken from the queue, `rest` is left. -/
def takeInput (rest : List Input) (s : State) : State := beginStep { s with inputs := rest }

/-- Decode an input event and run it; what spells no operation is refused by name (R107). -/
def runInput (w : InputWord) (s : State) : Host.Outcome State Fault Refusal :=
  match decodeInput w with
  | .ok i => exec i s
  | .error r => .refused (refusalOf r)

/-- The host keeps the lanes it read. -/
def keepLanes (l : Lanes) : Host.Outcome State Fault Refusal → Host.Outcome State Fault Refusal
  | .next t => .next { t with reply := t.reply.map (selectLanes l) }
  | .fault f => .fault f
  | .refused r => .refused r

/-- Run what an access by address turns out to be. -/
def runRouted (r : Routed) (s : State) : Host.Outcome State Fault Refusal :=
  match r with
  | .op w l => keepLanes l (runInput w s)
  | .mem a => hostAccess Config.launch a s

/-- Deliver one input (R13, R41, R42). An access at an address that `ADDR_MAP` gives nothing does not reach this block, and
changes nothing of it (R12, R232). -/
def deliver (e : Input) (s : State) : Host.Outcome State Fault Refusal :=
  match e with
  | .op w => runInput w s
  | .mem a => hostAccess Config.launch a s
  | .bus a =>
    match routeAccess Config.launch a with
    | none => .next s
    | some r => runRouted r s

/-- Deliver the next input. The channel-1 pointer is checked first (R231, notes/assumptions 11). With no input the block
does nothing (R252, notes/assumptions 19). -/
def deliverNext (s : State) : Host.Outcome State Fault Refusal :=
  match s.inputs with
  | [] => .next (beginStep s)
  | e :: rest =>
    if pointer1InRange s then deliver e (takeInput rest s)
    else raiseDefect (.channel1PointerOutOfRange e)

/-- A word's two bytes at its place in a bank. -/
def wordCells (i : Nat) (w : Word) : Memory := [(2 * i, hiByte w), (2 * i + 1, loByte w)]

/-- A bank whose slot 0 holds one command and whose other slots are NOPs (R253). -/
def commandBank (attr xword yword cword : Word) : Memory :=
  wordCells 0 attr ++ wordCells 1 xword ++ wordCells 2 yword ++ wordCells 3 cword
    ++ (List.range (slots - 1)).flatMap fun k => wordCells (4 * (k + 1)) 0

/-- Put an encoded instruction where the next step runs it: an input event at the head of the queue; a command alone in
the active bank, with the trigger that replays it at the head of the queue. -/
def placeForm (e : Encoded) (s : State) : State :=
  match e with
  | .input w => { s with inputs := .op w :: s.inputs }
  | .command attr xword yword cword =>
    let s := s.withMem (.bank s.activeBank) (commandBank attr xword yword cword)
    { s with inputs := .op (.portWrite 0x0 0) :: s.inputs }

/-- A word of spec/opcode_table.json, placed; a number of bits that is no format of the table places nothing. -/
def placeTableWord (nbits w : Nat) (s : State) : State :=
  match tableForm nbits w with
  | none => s
  | some e => placeForm e s

end Sys2Proof.Machine
end

