-- ==== Sys2Proof/Machine/Step.lean ====
section
/-! DEFINITION. One step of the machine: the next event of the total order, as one atomic action (00_scope.md R13,
20_memory.md R75), with its three outcomes (R17). -/

namespace Sys2Proof.Machine

/-- One step. -/
def step (s : State) : Host.Outcome State Fault Refusal := Sys2Proof.Machine.deliverNext s

/-- The instruction of a table word, placed where the next step runs it. -/
def State.withFetchWord (s : State) (nbits w : Nat) : State := Sys2Proof.Machine.placeTableWord nbits w s

end Sys2Proof.Machine
end

