-- ==== Sys2Proof/Safety.lean ====
section
/-! DEFINITION. The terms the claims are made in: the invariant every step keeps, the planes of the frame buffer, which
faults a run may end in, and the divider's clock. -/

namespace Sys2Proof.Machine

/-- A memory is canonical and lists only addresses its space has. -/
structure Memory.Within (m : Memory) (size : Nat) : Prop where
  canonical : m.wf
  bounded : ∀ c ∈ m, c.1 < size

/-- The size in bytes of each space (R26, R28, R29). -/
def spaceBytes (L : Launch) : Space → Nat
  | .bank _ => 0x4000
  | .frameBuffer => L.fbBytes
  | .tileSource => 2 * L.tileSrcWords

/-- What holds before and after every step. -/
structure Inv (s : State) : Prop where
  /-- every memory keeps its canonical form, within its space -/
  memories : ∀ sp, (s.mem sp).Within (spaceBytes Config.launch sp)
  /-- a word of the tile source that is ROM is no state (R29, R43) -/
  tileRomUnlisted : ∀ c ∈ s.ts, Config.launch.tileRom (c.1 / 2) = none
  /-- `busy` is 1 exactly while a completion event is pending (R23, R25) -/
  busyPending : s.busy = s.pending.isSome
  /-- a pending deadline is the last count times the period (R24, R121) -/
  deadline : ∀ d, s.pending = some d → d = completionDelay Config.launch s.pixelsProcessed ∧ s.pixelsProcessed ≠ 0
  /-- no replay counts more than 2^27 pixels (R123) -/
  countBound : s.pixelsProcessed.toNat ≤ 2 ^ 27
  /-- a replay's running count does not survive its step (R21) -/
  noRunningCount : s.cnt = 0
  /-- R211 -/
  pointer1 : s.ch1.romPointer.toNat < 0x2000
  /-- the reset lines follow `held` (R36, D23) -/
  resetLine0 : s.outReset0 = s.ch0.held
  resetLine1 : s.outReset1 = s.ch1.held
  /-- generator 1's clock is high only between a pulse phase and the advance phase after it (R37, R210) -/
  clockLine : s.outVck1 = true → s.clockToggle = false

/-- The pixel byte at row `Y`, column `X` of the frame buffer: "pix(Y, X)" (R65, R66). -/
def pixelByte (L : Launch) (s : State) (Y X : Nat) : Byte := readByte L s .frameBuffer (fbAddr L Y X + 1)

/-- The palette byte at row `Y`, column `X`: "pal(Y, X)" (R65, R66). -/
def paletteByte (L : Launch) (s : State) (Y X : Nat) : Byte := readByte L s .frameBuffer (fbAddr L Y X)

/-- Byte address `a` belongs to one plane byte of the pixels of a block: `off` is 1 for the pixel plane and 0 for the
palette plane (R66, R156, R160). -/
def inFootprint (L : Launch) (b : Block) (off a : Nat) : Prop :=
  ∃ r q, r < 8 * b.h ∧ q < 8 * b.w ∧ a = fbAddr L (b.y + r) (b.x + q) + off

/-- The place of pixel (r, q) of tile (j, k) in the walk of a block `h` tiles high: a larger place is a later pixel
(R156, R163). -/
def walkPlace (h j k r q : Nat) : Nat := ((j * h + k) * 8 + r) * 8 + q

/-- The source value of pixel (r, q) of tile (j, k): tile `code0 + j·h + k`, row r, column q (R62, R157, R159). -/
def tilePixel (L : Launch) (s : State) (code0 h j k r q : Nat) : Nibble :=
  pixelOf L (tsRead L s (16 * (code0 + j * h + k) + 2 * r)) (tsRead L s (16 * (code0 + j * h + k) + 2 * r + 1)) q

/-- Run meanings one after another. -/
def execAll : List Instr → State → Host.Outcome State Fault Refusal
  | [], s => .next s
  | i :: rest, s =>
    match exec i s with
    | .next t => execAll rest t
    | .fault f => .fault f
    | .refused r => .refused r

/-- The levels of `k` periods of the counter/timer output, each a rise and a fall (R207). -/
def clockPeriods (k : Nat) : List Instr := (List.replicate k [Instr.ctcTo true, Instr.ctcTo false]).flatten

/-- The command that slot `k` of bank `b` spells (R90, R96). -/
def slotCommand (L : Launch) (s : State) (b : BankId) (k : Nat) : Instr :=
  decodeCommand (bankWord L s b (4 * k)) (bankWord L s b (4 * k + 1)) (bankWord L s b (4 * k + 2))
    (bankWord L s b (4 * k + 3))

/-- The instruction is one of the five DMA commands (R2). -/
def isCommand : Instr → Bool
  | .nop => true
  | .tileO _ _ _ _ _ _ => true
  | .tileT _ _ _ _ _ _ => true
  | .fillPix _ _ _ _ _ => true
  | .fillPal _ _ _ _ _ => true
  | .dmaStart => false
  | .dmaStop => false
  | .dmaStatus => false
  | .adpcm0Start => false
  | .adpcm0Stop => false
  | .adpcm0AddrLo _ => false
  | .adpcm0AddrHi _ => false
  | .adpcm1Start => false
  | .adpcm1Stop => false
  | .winWrite _ _ _ => false
  | .winRead _ => false
  | .timerFire => false
  | .gen0Vck => false
  | .ctcTo _ => false
  | .reset => false

/-- The input delivers an event of the block other than `TimerFire` (R106). -/
def Input.notTimer : Input → Bool
  | .op (.event sel) => sel != 0b000
  | .op (.portWrite _ _) => true
  | .op (.portRead _) => true
  | .op (.winWrite _) => true
  | .op (.winRead _) => true
  | .mem _ => false
  | .bus _ => false

/-- A safe run: `k` steps from `s` end in no fault. -/
def RunsSafely (k : Nat) (s : State) : Prop := ∀ f, Sys2Proof.core.run k s ≠ .fault f

end Sys2Proof.Machine
end

