-- ==== Sys2Proof/Certificates/Slice0/Obligations.lean ====
section
/-! DEFINITION. The statements for the provers. A statement that names a result says that `exec` answers a next state; what
`{ s with … }` does not name is unchanged, the memories and every register among it. -/

open Sys2Proof Sys2Proof.Machine

/-! ## Encoding -/

/-- Decoding the words of a well-formed instruction gives the instruction back, with every operand at every value
(R91 to R97, R102, R104 to R106). -/
def Obligations.DecodeOfEncodeIsTheInstruction : Prop :=
  ∀ i : Instr, i.wellFormed = true → decode (encode i) = .ok i

/-- R97: the kinds of command as mask and match over `attr` (the flags' bits and polarity are the spec's decisions D3, D4). -/
def Obligations.CommandKindsMatchTheMaskTable : Prop :=
  ∀ attr : Word,
    (classify attr = .nop ↔ attr &&& 0xFFFF = 0x0000) ∧
    (classify attr = .tileO ↔ attr &&& 0xA000 = 0x0000 ∧ attr ≠ 0) ∧
    (classify attr = .tileT ↔ attr &&& 0xA000 = 0x8000) ∧
    (classify attr = .fillPix ↔ attr &&& 0x6000 = 0x2000) ∧
    (classify attr = .fillPal ↔ attr &&& 0x6000 = 0x6000)

/-- R98: the bits no kind reads have no effect, and a NOP ignores its other three words (the spec's decision D6). -/
def Obligations.UnreadCommandBitsHaveNoEffect : Prop :=
  ∀ attr x y c m : Word,
    decodeCommand attr (x ^^^ (m &&& 0x0600)) y c = decodeCommand attr x y c ∧
    decodeCommand attr x (y ^^^ (m &&& 0x0600)) c = decodeCommand attr x y c ∧
    decodeCommand attr x y (c ^^^ (m &&& 0xFF00)) = decodeCommand attr x y c ∧
    (attr &&& 0x2000 = 0 → attr ≠ 0 → attr ^^^ 0x4000 ≠ 0 → decodeCommand (attr ^^^ 0x4000) x y c = decodeCommand attr x y c) ∧
    (attr &&& 0x2000 ≠ 0 → decodeCommand (attr ^^^ (m &&& 0x9FFF)) x y c = decodeCommand attr x y c) ∧
    (∀ x' y' c' : Word, decodeCommand 0 x y c = decodeCommand 0 x' y' c')

/-- R99 and words of the table: what some words written out from the spec's encodings decode to. That the number of bits
names the format of a table word (8 a port, 12 a port with its data, 31 a window write, 3 an event) is the model's choice
(notes/assumptions 10). -/
def Obligations.WordsOfTheSpecDecode : Prop :=
  decodeCommand 0x0005 0x0000 0x0000 0x0002 = .tileO 5 0 0 0 0 0x02 ∧
  decodeCommand 0x4000 0x01FF 0x0600 0xFF02 = .tileO 0 511 0 0 0 0x02 ∧
  decodeCommand 0x8000 0x1234 0xFFFF 0x0034 = .tileT 0 52 2 511 31 0x34 ∧
  decodeCommand 0x0000 0xFFFF 0xFFFF 0xFFFF = .nop ∧
  decodeCommand 0xBFFF 0x0000 0x0000 0x00AB = .fillPix 0 0 0 0 0xAB ∧
  decodeCommand 0x6000 0xF9FF 0xF9FF 0x0001 = .fillPal 511 31 511 31 0x01 ∧
  decodeTableWord 8 0x0 = some .dmaStart ∧ decodeTableWord 8 0x2 = some .dmaStatus ∧
  decodeTableWord 12 0x456 = some (.adpcm0AddrHi 0x45) ∧ decodeTableWord 8 0x9 = none ∧
  decodeTableWord 31 0b0000000000100100001001000110100 = some (.winWrite 4 0b10 0x1234) ∧
  decodeTableWord 3 0b010 = some (.ctcTo false) ∧ decodeTableWord 3 0b100 = some .reset ∧ decodeTableWord 3 0b111 = none

/-- R68, R166: the corners and sizes a command can spell keep every coordinate, address and source tile in bounds. -/
def Obligations.CommandArithmeticStaysInBounds : Prop :=
  ∀ (code : BitVec 13) (x : BitVec 9) (wenc : BitVec 5) (y : BitVec 9) (henc : BitVec 5) (col : Byte) (pix : Nibble)
    (j k r q : Nat), j < (blockOf x wenc y henc).w → k < (blockOf x wenc y henc).h → r < 8 → q < 8 →
    (blockOf x wenc y henc).y + 8 * k + r ≤ 766 ∧ (blockOf x wenc y henc).x + 8 * j + q ≤ 766 ∧
    (((blockOf x wenc y henc).y + 8 * k + r) * 512 + ((blockOf x wenc y henc).x + 8 * j + q)) * 2 ≤ 785916 ∧
    code.toNat + (j * (blockOf x wenc y henc).h + k) ≤ 0x23FE ∧
    basePix col ||| pix.setWidth 8 = basePix col + pix.setWidth 8

/-! ## The step -/

/-- A step whose next input decodes to an instruction runs that instruction, after taking the input from the queue and
emptying the output list and the answer. -/
def Obligations.StepRunsTheDecodedInstruction : Prop :=
  ∀ (s : State) (w : InputWord) (rest : List Input) (i : Instr),
    s.inputs = .op w :: rest → s.ch1.romPointer.toNat < 0x2000 → decode (.input w) = .ok i →
    step s = exec i { s with inputs := rest, outputs := [], reply := none }

/-- R107: the inputs that spell no operation are refused, each by name (the spec's decision D38). -/
def Obligations.StepRefusesInputsThatSpellNoOperation : Prop :=
  ∀ (s : State) (w : InputWord) (rest : List Input), s.inputs = .op w :: rest → s.ch1.romPointer.toNat < 0x2000 →
    (∀ (sel : BitVec 4) (d : Byte), 9 ≤ sel.toNat → w = .portWrite sel d ∨ w = .portRead sel →
      step s = .refused (.undefinedPort sel)) ∧
    (∀ sel : BitVec 4, sel.toNat ≤ 8 → sel.toNat ≠ 2 → w = .portRead sel →
      step s = .refused (.readOfWriteOnlyPort sel)) ∧
    (∀ d : Byte, w = .portWrite 0x2 d → step s = .refused .writeOfStatusPort) ∧
    (∀ (i : BitVec 13) (d : Word), w = .winWrite (encodeTuple i 0b00 d) →
      step s = .refused .windowWriteWithoutByteEnable)

/-- R106: an event selector in 0b101..0b111 is refused (the spec's decisions D1, D38). -/
def Obligations.StepRefusesUndefinedEvents : Prop :=
  ∀ (s : State) (sel : BitVec 3) (rest : List Input), s.inputs = .op (.event sel) :: rest →
    s.ch1.romPointer.toNat < 0x2000 → 5 ≤ sel.toNat → step s = .refused (.undefinedEvent sel)

/-- R252: the block is passive. With no input, a step changes nothing but the last step's outputs and answer, which are
over (the model's choice, notes/assumptions 2 and 19). -/
def Obligations.StepWithoutInputDoesNothing : Prop :=
  ∀ s : State, s.inputs = [] → step s = .next { s with outputs := [], reply := none }

/-- R231: a channel-1 pointer outside 0..0x1FFF at the start of a step is a defect, whatever event arrives (that every
delivered event is checked is the model's reading, notes/assumptions 11). -/
def Obligations.PointerOutOfRangeIsADefect : Prop :=
  ∀ (s : State) (e : Input) (rest : List Input), s.inputs = e :: rest → 0x2000 ≤ s.ch1.romPointer.toNat →
    step s = .fault (.defect (.channel1PointerOutOfRange e))

/-- R232: from a state that meets the invariant, a step faults only as a `TimerFire` with nothing pending, or as a host
access while busy under the policy FAULT. -/
def Obligations.FaultsAreStrayCompletionOrBusyHazard : Prop :=
  ∀ (s : State) (f : Fault), Inv s → step s = .fault f →
    (f = .defect .timerFireWithNothingPending ∧ s.pending = none) ∨
    (f = .busyHazard ∧ s.busy = true ∧ Config.launch.busyHazardPolicy = .fault)

/-- The reset state meets the invariant. -/
def Obligations.ResetStateMeetsTheInvariant : Prop := Inv State.reset

/-- Every step keeps the invariant: canonical memories within their spaces, no byte listed for a ROM word of the tile
source, `busy` exactly while an event is pending, its
deadline, the bound of a count, no running count, the channel-1 pointer in range, the reset lines as `held`, the clock
line as the divider's state. -/
def Obligations.EveryStepKeepsTheInvariant : Prop := ∀ s t : State, Inv s → step s = .next t → Inv t

/-- A run from a state that meets the invariant, whose inputs are events of the block (R41) other than `TimerFire`, never
faults. The host's own memory accesses and its accesses by address are no events of R41: they may meet the policy. -/
def Obligations.RunsWithoutCompletionEventsNeverFault : Prop :=
  ∀ (k : Nat) (s : State), Inv s → (∀ e ∈ s.inputs, e.notTimer = true) → RunsSafely k s

/-! ## Which operations write what -/

/-- R22 to R25: the bank flips only by DMA_START (and RESET sets it); the count is written by those two; `busy` and the
pending event only by DMA_START, DMA_STOP, the completion event and RESET. -/
def Obligations.DmaStateIsWrittenOnlyByItsOperations : Prop :=
  ∀ (i : Instr) (s t : State), exec i s = .next t → i ≠ .dmaStart → i ≠ .reset →
    t.activeBank = s.activeBank ∧ t.pixelsProcessed = s.pixelsProcessed ∧
    (i ≠ .dmaStop → i ≠ .timerFire → t.busy = s.busy ∧ t.pending = s.pending)

/-- R26, R76: no operation writes the bank the window does not reach, and only a window write writes the other. -/
def Obligations.BanksAreWrittenOnlyThroughTheWindow : Prop :=
  ∀ (i : Instr) (s t : State), exec i s = .next t →
    t.mem (.bank (otherBank s.activeBank)) = s.mem (.bank (otherBank s.activeBank)) ∧
    ((∀ j be d, i ≠ .winWrite j be d) → t.bank0 = s.bank0 ∧ t.bank1 = s.bank1)

/-- R28, R29: no operation of the block writes the tile source, and only a command or its replay writes the frame
buffer. -/
def Obligations.TileSourceAndFrameBufferWriters : Prop :=
  ∀ (i : Instr) (s t : State), exec i s = .next t →
    t.ts = s.ts ∧ (isCommand i = false → i ≠ .dmaStart → t.fb = s.fb)

/-- R164: a tile draw and FILL_PIX write no palette byte, FILL_PAL writes no pixel byte: no command writes both planes. -/
def Obligations.NoCommandWritesBothPlanes : Prop :=
  ∀ (i : Instr) (s t : State), isCommand i = true → exec i s = .next t →
    ((∀ x wenc y henc col, i ≠ .fillPal x wenc y henc col) →
      ∀ Y X, paletteByte Config.launch t Y X = paletteByte Config.launch s Y X) ∧
    (∀ x wenc y henc col, i = .fillPal x wenc y henc col →
      ∀ Y X, pixelByte Config.launch t Y X = pixelByte Config.launch s Y X)

/-- R202: bits [20:19] of the channel-0 pointer change only by GEN0_VCK's carry and by RESET. -/
def Obligations.HighPointerBitsChangeOnlyByCarryOrReset : Prop :=
  ∀ (i : Instr) (s t : State), exec i s = .next t → i ≠ .reset →
    t.ch0.romPointer.extractLsb' 19 2 = s.ch0.romPointer.extractLsb' 19 2 ∨
      (i = .gen0Vck ∧ s.ch0.held = false ∧ s.ch0.nibblePhase = true ∧ s.ch0.romPointer.extractLsb' 0 19 = 0x7FFFF)

/-- R203: no port changes the channel-1 pointer, only RESET and an advance phase (a CTC_TO that falls with the toggle at
0): there the advance of a channel that is not held and plays its low nibble adds 1, or the loop reset puts a pointer that
this advance brings to 0x2000 (or that stands there, which no run reaches) to 0. -/
def Obligations.Channel1PointerHasNoPort : Prop :=
  ∀ (i : Instr) (s t : State), exec i s = .next t → i ≠ .reset →
    t.ch1.romPointer = s.ch1.romPointer ∨
      i = .ctcTo false ∧ s.prevClockToggle = true ∧ s.clockToggle = false ∧
        (s.ch1.held = false ∧ s.ch1.nibblePhase = true ∧ s.ch1.romPointer.toNat ≠ 0x1FFF ∧
            t.ch1.romPointer = s.ch1.romPointer + 1 ∨
          s.ch1.held = false ∧ s.ch1.nibblePhase = true ∧ s.ch1.romPointer.toNat = 0x1FFF ∧ t.ch1.romPointer = 0 ∨
          ¬ (s.ch1.held = false ∧ s.ch1.nibblePhase = true) ∧ s.ch1.romPointer.toNat = 0x2000 ∧ t.ch1.romPointer = 0)

/-! ## The DMA commands -/

/-- R153: a slot with `attr` = 0 is a NOP whatever its other three words; it writes nothing and counts nothing. -/
def Obligations.NopChangesNothing : Prop :=
  ∀ (x y c : Word) (s : State), exec .nop s = .next s ∧ decodeCommand 0x0000 x y c = .nop ∧
    ∀ (b : BankId) (k : Nat), bankWord Config.launch s b (4 * k) = 0 → replaySlot Config.launch b k s = s

/-- R161 (with R160): FILL_PIX leaves the colour, all 8 bits of it, in every pixel byte of the footprint, leaves every
other byte of the frame buffer alone and counts 64·w·h. -/
def Obligations.FillPixPaintsItsFootprint : Prop :=
  ∀ (x : BitVec 9) (wenc : BitVec 5) (y : BitVec 9) (henc : BitVec 5) (col : Byte) (s : State),
    ∃ t, exec (.fillPix x wenc y henc col) s = .next t ∧
      (∀ r q, r < 8 * (henc.toNat + 1) → q < 8 * (wenc.toNat + 1) →
        pixelByte Config.launch t (y.toNat + r) (x.toNat + q) = col) ∧
      (∀ a, ¬ inFootprint Config.launch (blockOf x wenc y henc) 1 a →
        readByte Config.launch t .frameBuffer a = readByte Config.launch s .frameBuffer a) ∧
      t = { s with fb := t.fb, cnt := s.cnt + BitVec.ofNat 32 (64 * ((wenc.toNat + 1) * (henc.toNat + 1))) }

/-- R162 (with R160): the same for FILL_PAL and the palette bytes. -/
def Obligations.FillPalPaintsItsFootprint : Prop :=
  ∀ (x : BitVec 9) (wenc : BitVec 5) (y : BitVec 9) (henc : BitVec 5) (col : Byte) (s : State),
    ∃ t, exec (.fillPal x wenc y henc col) s = .next t ∧
      (∀ r q, r < 8 * (henc.toNat + 1) → q < 8 * (wenc.toNat + 1) →
        paletteByte Config.launch t (y.toNat + r) (x.toNat + q) = col) ∧
      (∀ a, ¬ inFootprint Config.launch (blockOf x wenc y henc) 0 a →
        readByte Config.launch t .frameBuffer a = readByte Config.launch s .frameBuffer a) ∧
      t = { s with fb := t.fb, cnt := s.cnt + BitVec.ofNat 32 (64 * ((wenc.toNat + 1) * (henc.toNat + 1))) }

/-- R154, R156, R163, R165: TILE_O stores `basepix | pix` in the pixel byte of every pixel of the block that no later
pixel of the walk reaches by wraparound; it leaves no pixel byte of the footprint unwritten, so each holds the colour's
low nibble in its high one; it leaves every other byte alone and counts exactly 64·w·h. -/
def Obligations.OpaqueTileDrawOverwritesItsFootprint : Prop :=
  ∀ (code : BitVec 13) (x : BitVec 9) (wenc : BitVec 5) (y : BitVec 9) (henc : BitVec 5) (col : Byte) (s : State),
    ∃ t, exec (.tileO code x wenc y henc col) s = .next t ∧
      (∀ j k r q, j < wenc.toNat + 1 → k < henc.toNat + 1 → r < 8 → q < 8 →
        (∀ j' k' r' q', j' < wenc.toNat + 1 → k' < henc.toNat + 1 → r' < 8 → q' < 8 →
          walkPlace (henc.toNat + 1) j k r q < walkPlace (henc.toNat + 1) j' k' r' q' →
          fbAddr Config.launch (y.toNat + 8 * k' + r') (x.toNat + 8 * j' + q') ≠
            fbAddr Config.launch (y.toNat + 8 * k + r) (x.toNat + 8 * j + q)) →
        pixelByte Config.launch t (y.toNat + 8 * k + r) (x.toNat + 8 * j + q) =
          basePix col ||| (tilePixel Config.launch s code.toNat (henc.toNat + 1) j k r q).setWidth 8) ∧
      (∀ r q, r < 8 * (henc.toNat + 1) → q < 8 * (wenc.toNat + 1) →
        (pixelByte Config.launch t (y.toNat + r) (x.toNat + q)).extractLsb' 4 4 = col.extractLsb' 0 4) ∧
      (∀ a, ¬ inFootprint Config.launch (blockOf x wenc y henc) 1 a →
        readByte Config.launch t .frameBuffer a = readByte Config.launch s .frameBuffer a) ∧
      t = { s with fb := t.fb, cnt := s.cnt + BitVec.ofNat 32 (64 * ((wenc.toNat + 1) * (henc.toNat + 1))) }

/-- R155, R156, R158, R165: TILE_T stores `basepix | pix` where the source value is not 0 and no later pixel of non-zero
value reaches the same byte; a byte that no pixel of non-zero value addresses keeps its value; the count grows by the
pixels of non-zero value, or by 64·w·h when skipped pixels count. -/
def Obligations.TransparentTileDrawSkipsZeroPixels : Prop :=
  ∀ (code : BitVec 13) (x : BitVec 9) (wenc : BitVec 5) (y : BitVec 9) (henc : BitVec 5) (col : Byte) (s : State),
    ∃ t, exec (.tileT code x wenc y henc col) s = .next t ∧
      (∀ j k r q, j < wenc.toNat + 1 → k < henc.toNat + 1 → r < 8 → q < 8 →
        tilePixel Config.launch s code.toNat (henc.toNat + 1) j k r q ≠ 0 →
        (∀ j' k' r' q', j' < wenc.toNat + 1 → k' < henc.toNat + 1 → r' < 8 → q' < 8 →
          walkPlace (henc.toNat + 1) j k r q < walkPlace (henc.toNat + 1) j' k' r' q' →
          tilePixel Config.launch s code.toNat (henc.toNat + 1) j' k' r' q' ≠ 0 →
          fbAddr Config.launch (y.toNat + 8 * k' + r') (x.toNat + 8 * j' + q') ≠
            fbAddr Config.launch (y.toNat + 8 * k + r) (x.toNat + 8 * j + q)) →
        pixelByte Config.launch t (y.toNat + 8 * k + r) (x.toNat + 8 * j + q) =
          basePix col ||| (tilePixel Config.launch s code.toNat (henc.toNat + 1) j k r q).setWidth 8) ∧
      (∀ a, (∀ j k r q, j < wenc.toNat + 1 → k < henc.toNat + 1 → r < 8 → q < 8 →
          tilePixel Config.launch s code.toNat (henc.toNat + 1) j k r q ≠ 0 →
          a ≠ fbAddr Config.launch (y.toNat + 8 * k + r) (x.toNat + 8 * j + q) + 1) →
        readByte Config.launch t .frameBuffer a = readByte Config.launch s .frameBuffer a) ∧
      t = { s with fb := t.fb, cnt := t.cnt } ∧
      (Config.launch.countTransparentSkips = true →
        t.cnt = s.cnt + BitVec.ofNat 32 (64 * ((wenc.toNat + 1) * (henc.toNat + 1)))) ∧
      (Config.launch.countTransparentSkips = false →
        t.cnt = s.cnt + BitVec.ofNat 32
          ((List.range (wenc.toNat + 1)).map fun j => ((List.range (henc.toNat + 1)).map fun k =>
            ((List.range 8).map fun r => (List.range 8).countP fun q =>
              tilePixel Config.launch s code.toNat (henc.toNat + 1) j k r q != 0).sum).sum).sum)

/-- R159: the walk consumes w·h consecutive source tiles, column by column: tile (j, k) is drawn from `code0 + j·h + k`,
at that place of the walk. -/
def Obligations.TileWalkIsColumnMajorAndConsecutive : Prop :=
  ∀ code0 w h : Nat, (tileWalk code0 w h).length = w * h ∧
    ∀ j k, j < w → k < h → (tileWalk code0 w h)[j * h + k]? = some ((j, k), code0 + (j * h + k))

/-- R157: bit 0 to bit 3 of a pixel are its column's bits of the bytes that hold planes b1 to b4; with the planes in
reading order and the low bit leftmost this is the decode of the reference instance. The byte of each plane and the order
of the columns are the spec's open parameters (D9, D10). -/
def Obligations.PixelDecodeReadsItsFourPlanes : Prop :=
  ∀ (L : Launch) (w0 w1 : Word) (q : Nat), q < 8 →
    (∀ e, (L.pixelOrder = .lsbFirst ∧ e = q ∨ L.pixelOrder = .msbFirst ∧ e = 7 - q) →
      (pixelOf L w0 w1 q).getLsbD 0 = (planeByte w0 w1 L.planeMap.b1).getLsbD e ∧
      (pixelOf L w0 w1 q).getLsbD 1 = (planeByte w0 w1 L.planeMap.b2).getLsbD e ∧
      (pixelOf L w0 w1 q).getLsbD 2 = (planeByte w0 w1 L.planeMap.b3).getLsbD e ∧
      (pixelOf L w0 w1 q).getLsbD 3 = (planeByte w0 w1 L.planeMap.b4).getLsbD e) ∧
    (L.planeMap = ⟨.w0hi, .w0lo, .w1hi, .w1lo⟩ → L.pixelOrder = .lsbFirst →
      (pixelOf L w0 w1 q).getLsbD 3 = w1.getLsbD q ∧ (pixelOf L w0 w1 q).getLsbD 2 = w1.getLsbD (8 + q) ∧
      (pixelOf L w0 w1 q).getLsbD 1 = w0.getLsbD q ∧ (pixelOf L w0 w1 q).getLsbD 0 = w0.getLsbD (8 + q))

/-- R64, R29: a tile-source read takes the word of its index modulo the size, from the launch where that word is ROM and from
the state where it is RAM; so an index past the end wraps to the start; and where the source has at most 2^17 words a tile number
past 0x1FFF gives the words of its 13-bit value (the spec's decision D8). -/
def Obligations.TileSourceIndexWraps : Prop :=
  ∀ (L : Launch) (s : State), L.Allowed →
    (∀ i, L.tileRom (i % L.tileSrcWords) = none → tsRead L s i = readWord L s .tileSource (i % L.tileSrcWords)) ∧
    (∀ i w, L.tileRom (i % L.tileSrcWords) = some w → tsRead L s i = w) ∧
    (∀ i, tsRead L s (i + L.tileSrcWords) = tsRead L s i) ∧
    (L.tileSrcWords ≤ 2 ^ 17 → ∀ code i, i < 16 →
      tsRead L s (16 * code + i) = tsRead L s (16 * (code % 2 ^ 13) + i))

/-- R66 to R68: an address is the even byte of a word inside the buffer, wraps at its size, and a column past 511 goes on
in the next row. -/
def Obligations.FrameBufferAddressWraps : Prop :=
  ∀ (L : Launch) (Y X : Nat), L.Allowed →
    fbAddr L Y X = 2 * ((Y * 512 + X) % (L.fbBytes / 2)) ∧ fbAddr L Y X + 1 < L.fbBytes ∧
    fbAddr L Y X = fbAddr L (Y + X / 512) (X % 512) ∧
    (1024 ≤ L.fbBytes → fbAddr L (Y + L.fbBytes / 1024) X = fbAddr L Y X)

/-- R66: the address is `(Y·512 + X)·2` modulo the buffer size, in word `(Y·512 + X) mod (FB_BYTES/2)`; each of the two
primitives changes exactly one byte, its own plane's, and leaves the other byte of the word unchanged. -/
def Obligations.FrameBufferPrimitivesChangeOneByte : Prop :=
  ∀ (L : Launch) (s : State) (Y X : Nat) (v : Byte), L.Allowed →
    fbAddr L Y X = ((Y * 512 + X) * 2) % L.fbBytes ∧ fbAddr L Y X / 2 = (Y * 512 + X) % (L.fbBytes / 2) ∧
    readWord L (fbWritePix L Y X v s) .frameBuffer (fbAddr L Y X / 2) = wordOf (paletteByte L s Y X) v ∧
    readWord L (fbWritePal L Y X v s) .frameBuffer (fbAddr L Y X / 2) = wordOf v (pixelByte L s Y X) ∧
    (∀ sp a, ¬ (sp = .frameBuffer ∧ a = fbAddr L Y X + 1) →
      readByte L (fbWritePix L Y X v s) sp a = readByte L s sp a) ∧
    (∀ sp a, ¬ (sp = .frameBuffer ∧ a = fbAddr L Y X) →
      readByte L (fbWritePal L Y X v s) sp a = readByte L s sp a)

/-- A memory is canonical data: a write keeps the form, reads back, leaves every other address alone, and two canonical
memories that list the same byte at every address are the same list. -/
def Obligations.MemoryIsCanonicalData : Prop :=
  (∀ (m : Memory) (a : Nat) (v : Byte), m.wf →
    (m.store a v).wf ∧ (m.store a v).load? a = some v ∧ ∀ b, b ≠ a → (m.store a v).load? b = m.load? b) ∧
  (∀ m n : Memory, m.wf → n.wf → (∀ a, m.load? a = n.load? a) → m = n)

/-! ## Replay and trigger -/

/-- R96, R150: what the replay does with a slot is what the decoded command's meaning does. -/
def Obligations.SlotRunsAsItsDecodedCommand : Prop :=
  ∀ (b : BankId) (k : Nat) (s : State),
    exec (slotCommand Config.launch s b k) s = .next (replaySlot Config.launch b k s)

/-- R122, R150, R152: a trigger replays the bank the host filled: it runs the commands that all 0x800 slots of it spell, in
increasing order, on the state with the bank flipped, from a count of 0; what they leave in the frame buffer is what the
trigger leaves there, and their count is the count it records. -/
def Obligations.TriggerRunsEverySlotInOrder : Prop :=
  ∀ s : State, ∃ u t,
    execAll ((List.range 0x800).map (slotCommand Config.launch s s.activeBank))
      { s with activeBank := otherBank s.activeBank, cnt := 0 } = .next u ∧
    exec .dmaStart s = .next t ∧ t.fb = u.fb ∧ t.pixelsProcessed = u.cnt ∧ t.activeBank = otherBank s.activeBank

/-- R120, R121: DMA_START flips the bank, records the count n of its replay, cancels an earlier completion event, and for
n > 0 sets `busy` and schedules a completion n × DMA_CLK_PERIOD away, for n = 0 clears `busy`; nothing else changes but the
frame buffer (the cancel and the count of 0 are the spec's decision D13, the duration its D12). -/
def Obligations.TriggerSettlesBusyAndSchedules : Prop :=
  ∀ s : State, ∃ t, exec .dmaStart s = .next t ∧
    t.pixelsProcessed = (replay Config.launch s.activeBank { s with activeBank := otherBank s.activeBank }).cnt ∧
    t.fb = (replay Config.launch s.activeBank { s with activeBank := otherBank s.activeBank }).fb ∧
    (t.pixelsProcessed ≠ 0 →
      t = { s with
        activeBank := otherBank s.activeBank, pixelsProcessed := t.pixelsProcessed, fb := t.fb, cnt := 0, busy := true,
        pending := some (t.pixelsProcessed.toNat * Config.launch.dmaClkPeriod),
        outputs := s.outputs ++ (if s.pending.isSome then [.cancel] else []) ++
          [.sched (t.pixelsProcessed.toNat * Config.launch.dmaClkPeriod)] }) ∧
    (t.pixelsProcessed = 0 →
      t = { s with
        activeBank := otherBank s.activeBank, pixelsProcessed := 0, fb := t.fb, cnt := 0, busy := false,
        pending := none, outputs := s.outputs ++ (if s.pending.isSome then [.cancel] else []) })

/-- R27, R77: the bank a trigger opens to the host has no part in its replay: with other contents there, the trigger does
the same and leaves those contents. -/
def Obligations.ReplayNeverReadsTheBankItOpens : Prop :=
  ∀ (s : State) (m : Memory), ∃ t, exec .dmaStart s = .next t ∧
    exec .dmaStart (s.withMem (.bank (otherBank s.activeBank)) m) =
      .next (t.withMem (.bank (otherBank s.activeBank)) m)

/-- R123 (c), R151: the count of a replay is the sum, with no overflow, of what each slot counts by itself, and is at most
2^27. -/
def Obligations.ReplayCountIsTheBoundedSum : Prop :=
  ∀ s t : State, exec .dmaStart s = .next t →
    t.pixelsProcessed.toNat =
      ((List.range 0x800).map fun k =>
        (replaySlot Config.launch s.activeBank k { s with cnt := 0 }).cnt.toNat).sum ∧
    t.pixelsProcessed.toNat ≤ 2 ^ 27

/-- R123 (b), R120: a trigger over a bank whose every `attr` is 0 counts nothing, draws nothing and leaves the block idle; it
cancels an earlier completion event, if one is pending (the cancel and the count of 0 are the spec's decision D13). -/
def Obligations.TriggerOverEmptyBankStaysIdle : Prop :=
  ∀ s : State, (∀ k, k < 0x800 → bankWord Config.launch s s.activeBank (4 * k) = 0) →
    exec .dmaStart s = .next { s with
      activeBank := otherBank s.activeBank, pixelsProcessed := 0, cnt := 0, busy := false, pending := none,
      outputs := s.outputs ++ (if s.pending.isSome then [.cancel] else []) }

/-! ## Stop, completion, window, status -/

/-- R124: a write of any data to port 0x1 is DMA_STOP; it clears `busy` and cancels the pending completion, if there is
one. -/
def Obligations.StopClearsBusyAndCancels : Prop :=
  ∀ (d : Byte) (s : State), decode (.input (.portWrite 0x1 d)) = .ok .dmaStop ∧ exec .dmaStop s = .next { s with
    busy := false, pending := none, outputs := s.outputs ++ (if s.pending.isSome then [.cancel] else []) }

/-- R127: TimerFire clears `busy` and the pending event; with no event pending it is a defect. -/
def Obligations.CompletionClearsBusyOrIsADefect : Prop :=
  ∀ s : State, decode (.input (.event 0b000)) = .ok .timerFire ∧
    (∀ d, s.pending = some d → exec .timerFire s = .next { s with busy := false, pending := none }) ∧
    (s.pending = none → exec .timerFire s = .fault (.defect .timerFireWithNothingPending))

/-- R128: completion and stop race; in both orders the final state is `busy` = 0 and `pending` = None. A stop after the
fire emits no `Cancel`; after a stop the fire has no step. -/
def Obligations.CompletionAndStopRaceToTheSameState : Prop :=
  ∀ (s : State) (d : Nat), s.pending = some d →
    ∃ a b, execAll [.timerFire, .dmaStop] s = .next a ∧ exec .dmaStop s = .next b ∧
      exec .timerFire b = .fault (.defect .timerFireWithNothingPending) ∧
      a = { s with busy := false, pending := none } ∧ b = { a with outputs := s.outputs ++ [.cancel] }

/-- R129: WIN_WRITE stores the enabled byte lanes of its data in word i of the active bank, and changes nothing else. With
no lane enabled it is refused (R107). Byte enables are the spec's decision D16. -/
def Obligations.WindowWriteStoresTheEnabledLanes : Prop :=
  ∀ (i : BitVec 13) (be : BitVec 2) (d : Word) (s : State),
    (be ≠ 0 → ∃ t, exec (.winWrite i be d) s = .next t ∧
      bankWord Config.launch t s.activeBank i.toNat =
        wordOf (if be.getLsbD 1 then hiByte d else hiByte (bankWord Config.launch s s.activeBank i.toNat))
          (if be.getLsbD 0 then loByte d else loByte (bankWord Config.launch s s.activeBank i.toNat)) ∧
      (∀ sp a, ¬ (sp = .bank s.activeBank ∧
          (be.getLsbD 1 = true ∧ a = 2 * i.toNat ∨ be.getLsbD 0 = true ∧ a = 2 * i.toNat + 1)) →
        readByte Config.launch t sp a = readByte Config.launch s sp a) ∧
      t = { s with bank0 := t.bank0, bank1 := t.bank1 }) ∧
    (be = 0 → exec (.winWrite i be d) s = .refused .windowWriteWithoutByteEnable)

/-- R130: WIN_READ answers the word of the active bank and has no other effect (the spec's decision D15). -/
def Obligations.WindowReadAnswersTheActiveBank : Prop :=
  ∀ (i : BitVec 13) (s : State), exec (.winRead i) s =
    .next { s with reply := some (wordOf (readByte Config.launch s (.bank s.activeBank) (2 * i.toNat))
      (readByte Config.launch s (.bank s.activeBank) (2 * i.toNat + 1))) }

/-- R131: DMA_STATUS answers `busy` in bit 0 and 0 in the other bits, and has no side effect (the spec's decision D14). -/
def Obligations.StatusAnswersBusy : Prop :=
  ∀ s : State, exec .dmaStatus s = .next { s with reply := some (if s.busy then 0x0001 else 0x0000) }

/-! ## ADPCM -/

/-- R190, R206: GEN0_VCK is one advance of channel 0: nothing while held; else the high nibble, or the low nibble and the
pointer's increment modulo 2^21 (the spec's decision D26); the phase toggles. The nibbles are those of the ROM byte at the
pointer modulo the ROM's size (R70, the spec's decision D25). -/
def Obligations.Gen0ClockAdvancesChannel0 : Prop :=
  ∀ s : State,
    (s.ch0.held = true → exec .gen0Vck s = .next s) ∧
    (s.ch0.held = false → s.ch0.nibblePhase = false → exec .gen0Vck s = .next { s with
      ch0 := { s.ch0 with nibblePhase := true }
      outputs := s.outputs ++ [.nib .ch0 ((Config.launch.rom .ch0 (s.ch0.romPointer.toNat % Config.launch.romBytes .ch0)).extractLsb' 4 4)] }) ∧
    (s.ch0.held = false → s.ch0.nibblePhase = true → ∃ p : BitVec 21,
      p.toNat = (s.ch0.romPointer.toNat + 1) % 2 ^ 21 ∧
      exec .gen0Vck s = .next { s with
        ch0 := { s.ch0 with nibblePhase := false, romPointer := p }
        outputs := s.outputs ++ [.nib .ch0 ((Config.launch.rom .ch0 (s.ch0.romPointer.toNat % Config.launch.romBytes .ch0)).extractLsb' 0 4)] })

/-- R191 (b): two advances from phase 0 emit the two nibbles of one byte, high first, and move the pointer by exactly 1. The
byte is the one at the pointer modulo the ROM's size (R70, the spec's decision D25). -/
def Obligations.TwoAdvancesPlayOneByte : Prop :=
  ∀ s : State, s.ch0.held = false → s.ch0.nibblePhase = false →
    ∃ (t : State) (h l : Nibble), execAll [.gen0Vck, .gen0Vck] s = .next t ∧
      h ++ l = Config.launch.rom .ch0 (s.ch0.romPointer.toNat % Config.launch.romBytes .ch0) ∧
      t = { s with
        ch0 := { s.ch0 with romPointer := BitVec.ofNat 21 (s.ch0.romPointer.toNat + 1) }
        outputs := s.outputs ++ [.nib .ch0 h, .nib .ch0 l] }

/-- R195, R197: a start clears `held` and drives the reset line to 0 (the spec's decision D23); pointer, phase and divider
are unchanged. -/
def Obligations.StartsReleaseTheChannel : Prop :=
  ∀ s : State,
    exec .adpcm0Start s = .next { s with
      ch0 := { s.ch0 with held := false }, outReset0 := false, outputs := s.outputs ++ [.rst .ch0 false] } ∧
    exec .adpcm1Start s = .next { s with
      ch1 := { s.ch1 with held := false }, outReset1 := false, outputs := s.outputs ++ [.rst .ch1 false] }

/-- R196: ADPCM0_STOP holds the channel, clears its phase and the low byte of its pointer, keeps bits [20:8] and drives
the reset line to 1 (the spec's decision D23). -/
def Obligations.Channel0StopClearsPhaseAndLowByte : Prop :=
  ∀ s : State, ∃ p : BitVec 21, p.toNat = 256 * (s.ch0.romPointer.toNat / 256) ∧
    exec .adpcm0Stop s = .next { s with
      ch0 := { held := true, nibblePhase := false, romPointer := p }
      outReset0 := true, outputs := s.outputs ++ [.rst .ch0 true] }

/-- R198: ADPCM1_STOP holds the channel, clears its phase, keeps its pointer whole and drives the reset line to 1 (the
spec's decision D23). -/
def Obligations.Channel1StopKeepsItsPointer : Prop :=
  ∀ s : State, exec .adpcm1Stop s = .next { s with
    ch1 := { s.ch1 with held := true, nibblePhase := false }
    outReset1 := true, outputs := s.outputs ++ [.rst .ch1 true] }

/-- R200, R201: the address ports patch bits [15:8] with d[7:0] and bits [18:16] with d[2:0] (the spec's decision D21), and
nothing else. -/
def Obligations.AddressPortsPatchTheirBits : Prop :=
  ∀ (d : Byte) (s : State),
    (∃ p : BitVec 21, exec (.adpcm0AddrLo d) s = .next { s with ch0 := { s.ch0 with romPointer := p } } ∧
      p.extractLsb' 8 8 = d ∧ p.extractLsb' 0 8 = s.ch0.romPointer.extractLsb' 0 8 ∧
      p.extractLsb' 16 5 = s.ch0.romPointer.extractLsb' 16 5) ∧
    (∃ p : BitVec 21, exec (.adpcm0AddrHi d) s = .next { s with ch0 := { s.ch0 with romPointer := p } } ∧
      p.extractLsb' 16 3 = d.extractLsb' 0 3 ∧ p.extractLsb' 0 16 = s.ch0.romPointer.extractLsb' 0 16 ∧
      p.extractLsb' 19 2 = s.ch0.romPointer.extractLsb' 19 2)

/-- R204, R255: stop, the two address writes and start put channel 0 at page P, at its high nibble; bits [20:19] keep an
earlier carry. -/
def Obligations.PlayFromPage : Prop :=
  ∀ (P : Nat) (s : State), P < 2 ^ 19 → P % 0x100 = 0 →
    ∃ t, execAll [.adpcm0Stop, .adpcm0AddrLo (BitVec.ofNat 8 (P / 2 ^ 8)), .adpcm0AddrHi (BitVec.ofNat 8 (P / 2 ^ 16)),
        .adpcm0Start] s = .next t ∧
      t.ch0.held = false ∧ t.ch0.nibblePhase = false ∧
      t.ch0.romPointer.toNat = 2 ^ 19 * (s.ch0.romPointer.toNat / 2 ^ 19) + P

/-- R204, with R195, R196 and R206: stop and start with no address write between resume at the start of the pointer's page, at
its high nibble. The stop and the start drive the reset line, `Rst(0, 1)` and `Rst(0, 0)` (R195, R196, the spec's decision
D23), and the byte is the one at the pointer modulo the ROM's size (R70, the spec's decision D25). -/
def Obligations.StopThenStartResumesAtThePage : Prop :=
  ∀ s : State, ∃ t, execAll [.adpcm0Stop, .adpcm0Start, .gen0Vck] s = .next t ∧
    t.ch0.romPointer.toNat = 256 * (s.ch0.romPointer.toNat / 256) ∧ t.ch0.nibblePhase = true ∧
    t.outputs = s.outputs ++ [.rst .ch0 true, .rst .ch0 false,
      .nib .ch0 ((Config.launch.rom .ch0 (256 * (s.ch0.romPointer.toNat / 256) % Config.launch.romBytes .ch0)).extractLsb' 4 4)]

/-- R207, R208: a level that is no falling edge only writes `prev_clock_toggle`; a falling edge with the toggle at 1 is a
pulse: `Vck1(1)`, no advance, and the toggle flips (the spec's decisions D40, D24). -/
def Obligations.ClockLevelsOtherThanAnAdvance : Prop :=
  ∀ (l : Bool) (s : State),
    (s.prevClockToggle = false ∨ l = true → exec (.ctcTo l) s = .next { s with prevClockToggle := l }) ∧
    (s.prevClockToggle = true → l = false → s.clockToggle = true → exec (.ctcTo l) s = .next { s with
      prevClockToggle := false, clockToggle := false, outVck1 := true, outputs := s.outputs ++ [.vck1 true] })

/-- R207, R209 (with R190): a falling edge with the toggle at 0 advances channel 1 and drives its clock low; the byte at
0x1FFF ends in the loop reset: the pointer returns to 0, and `Rst(1,1)`, `Vck1(0)`, `Rst(1,0)` are emitted (the `Vck1(0)` events
and the order are the spec's decision D24; the byte is the one at the pointer modulo the ROM's size, R70, its D25). -/
def Obligations.AdvancePhaseAndLoopReset : Prop :=
  ∀ s : State, s.prevClockToggle = true → s.clockToggle = false → s.ch1.romPointer.toNat < 0x2000 →
    (s.ch1.held = true → exec (.ctcTo false) s = .next { s with
      prevClockToggle := false, clockToggle := true, outVck1 := false, outputs := s.outputs ++ [.vck1 false] }) ∧
    (s.ch1.held = false → s.ch1.nibblePhase = false → exec (.ctcTo false) s = .next { s with
      prevClockToggle := false, clockToggle := true, outVck1 := false, ch1 := { s.ch1 with nibblePhase := true }
      outputs := s.outputs ++
        [.nib .ch1 ((Config.launch.rom .ch1 (s.ch1.romPointer.toNat % Config.launch.romBytes .ch1)).extractLsb' 4 4), .vck1 false] }) ∧
    (s.ch1.held = false → s.ch1.nibblePhase = true → s.ch1.romPointer.toNat < 0x1FFF →
      exec (.ctcTo false) s = .next { s with
        prevClockToggle := false, clockToggle := true, outVck1 := false
        ch1 := { s.ch1 with nibblePhase := false, romPointer := BitVec.ofNat 21 (s.ch1.romPointer.toNat + 1) }
        outputs := s.outputs ++
          [.nib .ch1 ((Config.launch.rom .ch1 (s.ch1.romPointer.toNat % Config.launch.romBytes .ch1)).extractLsb' 0 4), .vck1 false] }) ∧
    (s.ch1.held = false → s.ch1.nibblePhase = true → s.ch1.romPointer.toNat = 0x1FFF →
      exec (.ctcTo false) s = .next { s with
        prevClockToggle := false, clockToggle := true, outVck1 := false, outReset1 := false
        ch1 := { s.ch1 with nibblePhase := false, romPointer := 0 }
        outputs := s.outputs ++
          [.nib .ch1 ((Config.launch.rom .ch1 (s.ch1.romPointer.toNat % Config.launch.romBytes .ch1)).extractLsb' 0 4),
            .rst .ch1 true, .vck1 false, .rst .ch1 false] })

/-- R210, R212: from pointer 0 at phase 0, with channel 1 playing and the divider about to advance, after k < 0x7FFF
periods of the clock (k + 1) / 2 advances have been made, so the pointer has moved once for every two of them; on the
0x7FFFth qualifying edge the pointer is back at 0 and the loop reset is the last thing emitted (in the order of the spec's
decision D24). -/
def Obligations.Channel1LoopsOnEdge7FFF : Prop :=
  ∀ s : State, s.prevClockToggle = false → s.clockToggle = false → s.ch1.held = false → s.ch1.nibblePhase = false →
    s.ch1.romPointer = 0 →
    (∀ k, k < 0x7FFF → ∃ t, execAll (clockPeriods k) s = .next t ∧
      t.ch1.romPointer.toNat = (k + 1) / 2 / 2 ∧ t.ch1.nibblePhase = decide ((k + 1) / 2 % 2 = 1) ∧
      t.clockToggle = decide (k % 2 = 1)) ∧
    (∃ t before, execAll (clockPeriods 0x7FFF) s = .next t ∧ t.ch1.romPointer = 0 ∧ t.ch1.nibblePhase = false ∧
      t.outputs = before ++ [.rst .ch1 true, .vck1 false, .rst .ch1 false])

/-- R236: CTC_TO and an ADPCM0 port are independent: in both orders the same state results, but for the order of the
outputs. -/
def Obligations.ClockAndChannel0PortsCommute : Prop :=
  ∀ (i : Instr) (l : Bool) (s : State),
    (i = .adpcm0Start ∨ i = .adpcm0Stop ∨ (∃ d, i = .adpcm0AddrLo d) ∨ ∃ d, i = .adpcm0AddrHi d) →
    ∃ a b, execAll [i, .ctcTo l] s = .next a ∧ execAll [.ctcTo l, i] s = .next b ∧
      a = { b with outputs := a.outputs } ∧ a.outputs.Perm b.outputs

/-! ## Reset -/

/-- R250: the reset state holds the table's values (the spec's decisions D17, D28, D29); no memory lists anything (R251 and
notes/assumptions 4). -/
def Obligations.ResetStateHoldsTheTable : Prop :=
  State.reset.activeBank = .bank0 ∧ State.reset.busy = false ∧ State.reset.pixelsProcessed = 0 ∧
  State.reset.pending = none ∧ State.reset.ch0 = ⟨0, false, true⟩ ∧ State.reset.ch1 = ⟨0, false, true⟩ ∧
  State.reset.clockToggle = false ∧ State.reset.prevClockToggle = false ∧ State.reset.outReset0 = true ∧
  State.reset.outReset1 = true ∧ State.reset.outVck1 = false ∧ ∀ sp, State.reset.mem sp = []

/-- R250, R251: RESET puts every register at its table value from any state, emits `Cancel` if an event is pending and then
the levels of the lines, and changes no memory (the spec's decisions D17, D18, D28, D29, D37). -/
def Obligations.ResetEventSetsEveryRegister : Prop :=
  ∀ s : State, exec .reset s = .next { s with
    activeBank := .bank0, busy := false, pixelsProcessed := 0, pending := none
    ch0 := ⟨0, false, true⟩, ch1 := ⟨0, false, true⟩, clockToggle := false, prevClockToggle := false
    outReset0 := true, outReset1 := true, outVck1 := false
    outputs := s.outputs ++ (if s.pending.isSome then [.cancel] else []) ++
      [.rst .ch0 true, .rst .ch1 true, .vck1 false] }

/-! ## The host's own accesses -/

/-- R263, R81: under FAULT a host read or write of the frame buffer, or a host write of the tile source, while busy faults;
else, and for a read of the tile source always, the access is an ordinary one: a read answers the word, or the byte of its
lane; a write stores the word, or the byte of its lane, and leaves the other lane and every other byte; where the word of the
tile source is ROM (R29, R43) a write changes nothing (notes/assumptions 15). That the index wraps
and how a lane is read are the model's reading (notes/assumptions 13), and the policy the spec's open parameter (D30). -/
def Obligations.HostAccessWhileBusyFollowsThePolicy : Prop :=
  ∀ (L : Launch) (s : State) (p : Nat) (l : Lanes) (d : Word),
    (L.busyHazardPolicy = .fault → s.busy = true →
      hostAccess L (.fbRead p l) s = .fault .busyHazard ∧ hostAccess L (.fbWrite p l d) s = .fault .busyHazard ∧
      hostAccess L (.tsWrite p l d) s = .fault .busyHazard) ∧
    (L.busyHazardPolicy = .atomic ∨ s.busy = false →
      hostAccess L (.fbRead p .both) s =
        .next { s with reply := some (readWord L s .frameBuffer (p % (L.fbBytes / 2))) } ∧
      hostAccess L (.fbRead p .high) s =
        .next { s with reply := some ((readByte L s .frameBuffer (2 * (p % (L.fbBytes / 2)))).setWidth 16) } ∧
      hostAccess L (.fbRead p .low) s =
        .next { s with reply := some ((readByte L s .frameBuffer (2 * (p % (L.fbBytes / 2)) + 1)).setWidth 16) } ∧
      (∃ t, hostAccess L (.fbWrite p l d) s = .next t ∧ t = { s with fb := t.fb } ∧
        (l ≠ .low → readByte L t .frameBuffer (2 * (p % (L.fbBytes / 2))) = d.extractLsb' 8 8) ∧
        (l ≠ .high → readByte L t .frameBuffer (2 * (p % (L.fbBytes / 2)) + 1) = d.extractLsb' 0 8) ∧
        ∀ a, ¬ (l ≠ .low ∧ a = 2 * (p % (L.fbBytes / 2)) ∨ l ≠ .high ∧ a = 2 * (p % (L.fbBytes / 2)) + 1) →
          readByte L t .frameBuffer a = readByte L s .frameBuffer a) ∧
      (∀ w, L.tileRom (p % L.tileSrcWords) = some w → hostAccess L (.tsWrite p l d) s = .next s) ∧
      (L.tileRom (p % L.tileSrcWords) = none →
        ∃ t, hostAccess L (.tsWrite p l d) s = .next t ∧ t = { s with ts := t.ts } ∧
        (l ≠ .low → readByte L t .tileSource (2 * (p % L.tileSrcWords)) = d.extractLsb' 8 8) ∧
        (l ≠ .high → readByte L t .tileSource (2 * (p % L.tileSrcWords) + 1) = d.extractLsb' 0 8) ∧
        ∀ a, ¬ (l ≠ .low ∧ a = 2 * (p % L.tileSrcWords) ∨ l ≠ .high ∧ a = 2 * (p % L.tileSrcWords) + 1) →
          readByte L t .tileSource a = readByte L s .tileSource a)) ∧
    hostAccess L (.tsRead p .both) s = .next { s with reply := some (tsRead L s p) } ∧
    hostAccess L (.tsRead p .high) s = .next { s with reply := some (((tsRead L s p).extractLsb' 8 8).setWidth 16) } ∧
    hostAccess L (.tsRead p .low) s = .next { s with reply := some (((tsRead L s p).extractLsb' 0 8).setWidth 16) }

/-- R61, R129, R130: a step that delivers a host access at byte offset `off` of the window reaches word `off / 2` of the
active bank. A byte read answers its lane, the high one at an even offset (the spec's decision D39), a word read the word; a
byte write stores its byte in its lane and leaves the other, a word write stores both. That a word access at an odd offset
is the access of the word that holds the offset, and that the window is one run of addresses from its address in ADDR_MAP on,
is the model's reading (notes/assumptions 14). -/
def Obligations.WindowAccessByAddressReachesItsWord : Prop :=
  ∀ (s : State) (rest : List Input) (off : Nat) (v : Word), off < 0x4000 → s.ch1.romPointer.toNat < 0x2000 →
    (s.inputs = .bus (.read (Config.launch.addrMap .window + off) .byte) :: rest →
      step s = .next { s with inputs := rest, outputs := [], reply := some (BitVec.setWidth 16
        (if off % 2 = 0 then (bankWord Config.launch s s.activeBank (off / 2)).extractLsb' 8 8
          else (bankWord Config.launch s s.activeBank (off / 2)).extractLsb' 0 8)) }) ∧
    (s.inputs = .bus (.read (Config.launch.addrMap .window + off) .word) :: rest →
      step s = .next { s with
        inputs := rest, outputs := [], reply := some (bankWord Config.launch s s.activeBank (off / 2)) }) ∧
    (s.inputs = .bus (.write (Config.launch.addrMap .window + off) .byte v) :: rest →
      ∃ t, step s = .next t ∧
        t = { s with inputs := rest, outputs := [], reply := none, bank0 := t.bank0, bank1 := t.bank1 } ∧
        bankWord Config.launch t s.activeBank (off / 2) =
          (if off % 2 = 0 then
            v.extractLsb' 0 8 ++ (bankWord Config.launch s s.activeBank (off / 2)).extractLsb' 0 8
          else (bankWord Config.launch s s.activeBank (off / 2)).extractLsb' 8 8 ++ v.extractLsb' 0 8) ∧
        ∀ sp a, ¬ (sp = .bank s.activeBank ∧ a / 2 = off / 2) →
          readByte Config.launch t sp a = readByte Config.launch s sp a) ∧
    (s.inputs = .bus (.write (Config.launch.addrMap .window + off) .word v) :: rest →
      ∃ t, step s = .next t ∧
        t = { s with inputs := rest, outputs := [], reply := none, bank0 := t.bank0, bank1 := t.bank1 } ∧
        bankWord Config.launch t s.activeBank (off / 2) = v ∧
        ∀ sp a, ¬ (sp = .bank s.activeBank ∧ a / 2 = off / 2) →
          readByte Config.launch t sp a = readByte Config.launch s sp a)

/-- R12, R39, R42, R65, R74, R104, R107, R232, R239: a step that delivers a host access by address. At the address of a
port it is an access of that port: a write stores the low 8 bits of its data, a read of DMA_STATUS answers `busy` and a read
of any other port is refused. At byte offset `off` of the frame buffer or of the tile source it is the host agent's access of
word `off / 2`: of the lane of its byte (the high one at an even offset) or of the whole word. At an address that ADDR_MAP
gives nothing of this block it changes nothing of it. The access is the one its first address names, also where a second byte
lies elsewhere (a DESIGN CHOICE, notes/assumptions 14). It is refused only as an input of R107. Runs of addresses, the cut of a
value to a port's width, a word at an odd offset, the lanes of the tile source, and that an access to nothing is a step, are
the model's reading (notes/assumptions 14, 16). -/
def Obligations.AccessByAddressIsTheOperationItNames : Prop :=
  ∀ (s : State) (rest : List Input) (n : Width) (v : Word), s.ch1.romPointer.toNat < 0x2000 →
    (∀ sel : Fin 9,
      (s.inputs = .bus (.write (Config.launch.addrMap (.port sel)) n v) :: rest →
        step s = step { s with inputs := .op (.portWrite (BitVec.ofNat 4 sel.val) (v.extractLsb' 0 8)) :: rest }) ∧
      (s.inputs = .bus (.read (Config.launch.addrMap (.port sel)) n) :: rest → sel.val = 2 →
        step s = .next { s with
          inputs := rest, outputs := [], reply := some (if s.busy then 0x0001 else 0x0000) }) ∧
      (s.inputs = .bus (.read (Config.launch.addrMap (.port sel)) n) :: rest → sel.val ≠ 2 →
        step s = .refused (.readOfWriteOnlyPort (BitVec.ofNat 4 sel.val)))) ∧
    (∀ (off : Nat) (l : Lanes) (d : Word),
      (n = .word ∧ l = .both ∧ d = v ∨
        n = .byte ∧ l = (if off % 2 = 0 then .high else .low) ∧ d = v.extractLsb' 0 8 ++ v.extractLsb' 0 8) →
      (off < Config.launch.fbBytes →
        (s.inputs = .bus (.read (Config.launch.addrMap .frameBuffer + off) n) :: rest →
          step s = step { s with inputs := .mem (.fbRead (off / 2) l) :: rest }) ∧
        (s.inputs = .bus (.write (Config.launch.addrMap .frameBuffer + off) n v) :: rest →
          step s = step { s with inputs := .mem (.fbWrite (off / 2) l d) :: rest })) ∧
      (off < 2 * Config.launch.tileSrcWords →
        (s.inputs = .bus (.read (Config.launch.addrMap .tileSource + off) n) :: rest →
          step s = step { s with inputs := .mem (.tsRead (off / 2) l) :: rest }) ∧
        (s.inputs = .bus (.write (Config.launch.addrMap .tileSource + off) n v) :: rest →
          step s = step { s with inputs := .mem (.tsWrite (off / 2) l d) :: rest }))) ∧
    (∀ (addr : Nat) (b : BusAccess), b = .read addr n ∨ b = .write addr n v → s.inputs = .bus b :: rest →
      ((∀ i off, off < Config.launch.extent i → addr ≠ Config.launch.addrMap i + off) →
        step s = .next { s with inputs := rest, outputs := [], reply := none }) ∧
      (∀ r, step s = .refused r →
        (∃ sel, r = .readOfWriteOnlyPort sel ∧ sel.toNat ≤ 8 ∧ sel.toNat ≠ 2) ∨ r = .writeOfStatusPort))
end

