-- ==== Sys2Proof/Laws/Config.lean ====
section
/-! SUPPORT. What is known of the launch: the allowed values of 00_scope.md R10, and nothing else; and that every plane
map of R10 is one of its values. -/

namespace Sys2Proof

theorem MapItem.mem_all (i : MapItem) : i ∈ MapItem.all := by
  cases i with
  | port sel => revert sel; decide
  | window => decide
  | frameBuffer => decide
  | tileSource => decide

/-- Items that do not meet have no host address in common. -/
theorem MapItem.Separate.injective {extent base : MapItem → Nat} (h : MapItem.Separate extent base) (i j : MapItem)
    (a b : Nat) (ha : a < extent i) (hb : b < extent j) (e : base i + a = base j + b) : i = j ∧ a = b := by
  by_cases hij : i = j
  · subst hij; exact ⟨rfl, by omega⟩
  · have := h i i.mem_all j j.mem_all hij
    omega

/-- A map of items that are not empty is injective only if no two items meet. -/
theorem MapItem.separate_of_injective {extent base : MapItem → Nat} (hpos : ∀ i, 0 < extent i)
    (h : ∀ i j a b, a < extent i → b < extent j → base i + a = base j + b → i = j ∧ a = b) :
    MapItem.Separate extent base := by
  intro i _ j _ hij
  have hi := hpos i
  have hj := hpos j
  by_contra hc
  rcases Nat.le_total (base i) (base j) with hle | hle
  · exact hij (h i j (base j - base i) 0 (by omega) hj (by omega)).1
  · exact hij (h i j 0 (base i - base j) hi (by omega) (by omega)).1

end Sys2Proof

namespace Sys2Proof.Config

theorem inOrder_separate {extent : MapItem → Nat} (h : ∀ sel, extent (.port sel) = 1) :
    MapItem.Separate extent (inOrder extent) := by
  intro i _ j _ hij
  cases i <;> cases j <;> simp_all only [inOrder, ne_eq, MapItem.port.injEq, not_true_eq_false] <;> omega

theorem planeMapOf_bijective : ∀ c, (planeMapOf c).Bijective := by decide

theorem planeMapOf_surjective :
    ∀ b1 b2 b3 b4 : PlaneByte, PlaneMap.Bijective ⟨b1, b2, b3, b4⟩ → ∃ c, planeMapOf c = ⟨b1, b2, b3, b4⟩ := by
  intro b1 b2 b3 b4
  cases b1 <;> cases b2 <;> cases b3 <;> cases b4 <;> decide

/-- Whatever is drawn, the map is one to one. -/
theorem addrMapOf_separate (fbBytes tileSrcWords : Nat) (draw : MapItem → Nat) :
    MapItem.Separate (MapItem.bytes fbBytes tileSrcWords) (addrMapOf (MapItem.bytes fbBytes tileSrcWords) draw) := by
  unfold addrMapOf
  split
  · assumption
  · exact inOrder_separate fun _ => rfl

/-- Every one to one map is a value of `addrMapOf`. -/
theorem addrMapOf_onto {extent base : MapItem → Nat} (h : MapItem.Separate extent base) :
    ∃ draw, addrMapOf extent draw = base := ⟨base, if_pos h⟩

theorem launch_allowed : launch.Allowed where
  fbBytes := ⟨_, Nat.le_add_right 1 _, rfl⟩
  tileSrcWords := ⟨_, Nat.le_add_right 4 _, rfl⟩
  planeMap := planeMapOf_bijective _
  dmaClkPeriod := Nat.lt_of_lt_of_le Nat.one_pos (Nat.le_add_right 1 _)
  rom0Bytes := ⟨_, by omega, rfl⟩
  rom1Bytes := ⟨_, by omega, by omega, rfl⟩
  addrMap := (addrMapOf_separate _ _ _).injective

end Sys2Proof.Config

namespace Sys2Proof

/-- A frame buffer has a whole number of words, and at least one. -/
theorem Launch.Allowed.fbWords {L : Launch} (h : L.Allowed) : ∃ n, 0 < n ∧ L.fbBytes = 2 * n := by
  obtain ⟨k, hk, e⟩ := h.fbBytes
  exact ⟨2 ^ (k - 1), by positivity, by rw [e, ← Nat.pow_succ']; congr 1; omega⟩

theorem Launch.Allowed.fbBytes_pos {L : Launch} (h : L.Allowed) : 0 < L.fbBytes := by
  obtain ⟨n, hn, e⟩ := h.fbWords
  omega

theorem Launch.Allowed.tileSrcWords_pos {L : Launch} (h : L.Allowed) : 0 < L.tileSrcWords := by
  obtain ⟨k, -, e⟩ := h.tileSrcWords
  rw [e]; positivity

theorem Launch.Allowed.extent_pos {L : Launch} (h : L.Allowed) (i : MapItem) : 0 < L.extent i := by
  have := h.fbBytes_pos
  have := h.tileSrcWords_pos
  cases i <;> simp only [Launch.extent, MapItem.bytes] <;> omega

end Sys2Proof
end

