-- ==== Sys2Proof/Laws/Memory.lean ====
section
/-! SUPPORT. The laws of a memory: a read after a write, what a write leaves alone, and that every write keeps the
canonical form. -/

namespace Sys2Proof.Machine

/-- What one write does to every address. -/
theorem Memory.load?_store (m : Memory) (a a' : Nat) (v : Byte) :
    (m.store a v).load? a' = if a' = a then some v else m.load? a' := by
  induction m with
  | nil => simp [Memory.store, Memory.load?, eq_comm]
  | cons c m ih =>
    obtain ⟨b, w⟩ := c
    unfold Memory.store
    split
    · next hlt =>
      by_cases e : a' = a
      · subst e; simp [Memory.load?]
      · simp [Memory.load?, e, Ne.symm e]
    · next hge =>
      split
      · next he =>
        subst he
        by_cases e : a' = a
        · subst e; simp [Memory.load?]
        · simp [Memory.load?, e, Ne.symm e]
      · next hne =>
        simp only [Memory.load?, ih]
        by_cases e : a' = a
        · subst e; simp [Ne.symm hne]
        · simp [e]

/-- Every address a write lists is the written one or was listed. -/
theorem Memory.mem_store {m : Memory} {a : Nat} {v : Byte} {c : Host.Cell} (h : c ∈ m.store a v) :
    c = (a, v) ∨ c ∈ m := by
  induction m with
  | nil => simpa [Memory.store] using h
  | cons d m ih =>
    unfold Memory.store at h
    split at h
    · simpa using h
    · split at h
      · rcases List.mem_cons.1 h with h | h
        · exact .inl h
        · exact .inr (List.mem_cons_of_mem _ h)
      · rcases List.mem_cons.1 h with h | h
        · exact .inr (by simp [h])
        · exact (ih h).imp id (List.mem_cons_of_mem _)

/-- A write keeps the canonical form. -/
theorem Memory.store_wf {m : Memory} (a : Nat) (v : Byte) (h : m.wf) : (m.store a v).wf := by
  induction m with
  | nil => simp [Memory.store]
  | cons c m ih =>
    obtain ⟨hb, hm⟩ := List.pairwise_cons.1 h
    unfold Memory.store
    split
    · next hlt =>
      refine List.pairwise_cons.2 ⟨fun d hd => ?_, h⟩
      rcases List.mem_cons.1 hd with rfl | hd
      · exact hlt
      · exact hlt.trans (hb d hd)
    · split
      · next he => exact List.pairwise_cons.2 ⟨fun d hd => he ▸ hb d hd, hm⟩
      · next hge hne =>
        refine List.pairwise_cons.2 ⟨fun d hd => ?_, ih hm⟩
        rcases Memory.mem_store hd with rfl | hd
        · simp only; omega
        · exact hb d hd

/-- An address below every listed one is not listed. -/
theorem Memory.load?_of_lt {m : Memory} {a : Nat} (h : ∀ c ∈ m, a < c.1) : m.load? a = none := by
  induction m with
  | nil => rfl
  | cons c m ih =>
    have hc := h c (by simp)
    simp [Memory.load?, ih fun d hd => h d (by simp [hd]), show c.1 ≠ a by omega]

end Sys2Proof.Machine
end

