-- ==== Sys2Proof/Laws/State.lean ====
section
/-! SUPPORT. What each named update of State does to each field: one lemma a field, so that no later proof unfolds a
record update. -/

namespace Sys2Proof.Machine

@[simp] theorem emit_activeBank (e : Output) (s : State) : (emit e s).activeBank = s.activeBank := rfl
@[simp] theorem emit_busy (e : Output) (s : State) : (emit e s).busy = s.busy := rfl
@[simp] theorem emit_pixelsProcessed (e : Output) (s : State) : (emit e s).pixelsProcessed = s.pixelsProcessed := rfl
@[simp] theorem emit_pending (e : Output) (s : State) : (emit e s).pending = s.pending := rfl
@[simp] theorem emit_bank0 (e : Output) (s : State) : (emit e s).bank0 = s.bank0 := rfl
@[simp] theorem emit_bank1 (e : Output) (s : State) : (emit e s).bank1 = s.bank1 := rfl
@[simp] theorem emit_fb (e : Output) (s : State) : (emit e s).fb = s.fb := rfl
@[simp] theorem emit_ts (e : Output) (s : State) : (emit e s).ts = s.ts := rfl
@[simp] theorem emit_ch0 (e : Output) (s : State) : (emit e s).ch0 = s.ch0 := rfl
@[simp] theorem emit_ch1 (e : Output) (s : State) : (emit e s).ch1 = s.ch1 := rfl
@[simp] theorem emit_clockToggle (e : Output) (s : State) : (emit e s).clockToggle = s.clockToggle := rfl
@[simp] theorem emit_prevClockToggle (e : Output) (s : State) : (emit e s).prevClockToggle = s.prevClockToggle := rfl
@[simp] theorem emit_outReset0 (e : Output) (s : State) : (emit e s).outReset0 = s.outReset0 := rfl
@[simp] theorem emit_outReset1 (e : Output) (s : State) : (emit e s).outReset1 = s.outReset1 := rfl
@[simp] theorem emit_outVck1 (e : Output) (s : State) : (emit e s).outVck1 = s.outVck1 := rfl
@[simp] theorem emit_cnt (e : Output) (s : State) : (emit e s).cnt = s.cnt := rfl
@[simp] theorem emit_outputs (e : Output) (s : State) : (emit e s).outputs = s.outputs ++ [e] := rfl
@[simp] theorem emit_reply (e : Output) (s : State) : (emit e s).reply = s.reply := rfl
@[simp] theorem emit_inputs (e : Output) (s : State) : (emit e s).inputs = s.inputs := rfl

@[simp] theorem answer_activeBank (v : Word) (s : State) : (answer v s).activeBank = s.activeBank := rfl
@[simp] theorem answer_busy (v : Word) (s : State) : (answer v s).busy = s.busy := rfl
@[simp] theorem answer_pixelsProcessed (v : Word) (s : State) : (answer v s).pixelsProcessed = s.pixelsProcessed := rfl
@[simp] theorem answer_pending (v : Word) (s : State) : (answer v s).pending = s.pending := rfl
@[simp] theorem answer_bank0 (v : Word) (s : State) : (answer v s).bank0 = s.bank0 := rfl
@[simp] theorem answer_bank1 (v : Word) (s : State) : (answer v s).bank1 = s.bank1 := rfl
@[simp] theorem answer_fb (v : Word) (s : State) : (answer v s).fb = s.fb := rfl
@[simp] theorem answer_ts (v : Word) (s : State) : (answer v s).ts = s.ts := rfl
@[simp] theorem answer_ch0 (v : Word) (s : State) : (answer v s).ch0 = s.ch0 := rfl
@[simp] theorem answer_ch1 (v : Word) (s : State) : (answer v s).ch1 = s.ch1 := rfl
@[simp] theorem answer_clockToggle (v : Word) (s : State) : (answer v s).clockToggle = s.clockToggle := rfl
@[simp] theorem answer_prevClockToggle (v : Word) (s : State) : (answer v s).prevClockToggle = s.prevClockToggle := rfl
@[simp] theorem answer_outReset0 (v : Word) (s : State) : (answer v s).outReset0 = s.outReset0 := rfl
@[simp] theorem answer_outReset1 (v : Word) (s : State) : (answer v s).outReset1 = s.outReset1 := rfl
@[simp] theorem answer_outVck1 (v : Word) (s : State) : (answer v s).outVck1 = s.outVck1 := rfl
@[simp] theorem answer_cnt (v : Word) (s : State) : (answer v s).cnt = s.cnt := rfl
@[simp] theorem answer_outputs (v : Word) (s : State) : (answer v s).outputs = s.outputs := rfl
@[simp] theorem answer_reply (v : Word) (s : State) : (answer v s).reply = some v := rfl
@[simp] theorem answer_inputs (v : Word) (s : State) : (answer v s).inputs = s.inputs := rfl

@[simp] theorem countPixel_activeBank (s : State) : (countPixel s).activeBank = s.activeBank := rfl
@[simp] theorem countPixel_busy (s : State) : (countPixel s).busy = s.busy := rfl
@[simp] theorem countPixel_pixelsProcessed (s : State) : (countPixel s).pixelsProcessed = s.pixelsProcessed := rfl
@[simp] theorem countPixel_pending (s : State) : (countPixel s).pending = s.pending := rfl
@[simp] theorem countPixel_bank0 (s : State) : (countPixel s).bank0 = s.bank0 := rfl
@[simp] theorem countPixel_bank1 (s : State) : (countPixel s).bank1 = s.bank1 := rfl
@[simp] theorem countPixel_fb (s : State) : (countPixel s).fb = s.fb := rfl
@[simp] theorem countPixel_ts (s : State) : (countPixel s).ts = s.ts := rfl
@[simp] theorem countPixel_ch0 (s : State) : (countPixel s).ch0 = s.ch0 := rfl
@[simp] theorem countPixel_ch1 (s : State) : (countPixel s).ch1 = s.ch1 := rfl
@[simp] theorem countPixel_clockToggle (s : State) : (countPixel s).clockToggle = s.clockToggle := rfl
@[simp] theorem countPixel_prevClockToggle (s : State) : (countPixel s).prevClockToggle = s.prevClockToggle := rfl
@[simp] theorem countPixel_outReset0 (s : State) : (countPixel s).outReset0 = s.outReset0 := rfl
@[simp] theorem countPixel_outReset1 (s : State) : (countPixel s).outReset1 = s.outReset1 := rfl
@[simp] theorem countPixel_outVck1 (s : State) : (countPixel s).outVck1 = s.outVck1 := rfl
@[simp] theorem countPixel_cnt (s : State) : (countPixel s).cnt = s.cnt + 1 := rfl
@[simp] theorem countPixel_outputs (s : State) : (countPixel s).outputs = s.outputs := rfl
@[simp] theorem countPixel_reply (s : State) : (countPixel s).reply = s.reply := rfl
@[simp] theorem countPixel_inputs (s : State) : (countPixel s).inputs = s.inputs := rfl

@[simp] theorem driveVck1_activeBank (l : Bool) (s : State) : (driveVck1 l s).activeBank = s.activeBank := rfl
@[simp] theorem driveVck1_busy (l : Bool) (s : State) : (driveVck1 l s).busy = s.busy := rfl
@[simp] theorem driveVck1_pixelsProcessed (l : Bool) (s : State) : (driveVck1 l s).pixelsProcessed = s.pixelsProcessed := rfl
@[simp] theorem driveVck1_pending (l : Bool) (s : State) : (driveVck1 l s).pending = s.pending := rfl
@[simp] theorem driveVck1_bank0 (l : Bool) (s : State) : (driveVck1 l s).bank0 = s.bank0 := rfl
@[simp] theorem driveVck1_bank1 (l : Bool) (s : State) : (driveVck1 l s).bank1 = s.bank1 := rfl
@[simp] theorem driveVck1_fb (l : Bool) (s : State) : (driveVck1 l s).fb = s.fb := rfl
@[simp] theorem driveVck1_ts (l : Bool) (s : State) : (driveVck1 l s).ts = s.ts := rfl
@[simp] theorem driveVck1_ch0 (l : Bool) (s : State) : (driveVck1 l s).ch0 = s.ch0 := rfl
@[simp] theorem driveVck1_ch1 (l : Bool) (s : State) : (driveVck1 l s).ch1 = s.ch1 := rfl
@[simp] theorem driveVck1_clockToggle (l : Bool) (s : State) : (driveVck1 l s).clockToggle = s.clockToggle := rfl
@[simp] theorem driveVck1_prevClockToggle (l : Bool) (s : State) : (driveVck1 l s).prevClockToggle = s.prevClockToggle := rfl
@[simp] theorem driveVck1_outReset0 (l : Bool) (s : State) : (driveVck1 l s).outReset0 = s.outReset0 := rfl
@[simp] theorem driveVck1_outReset1 (l : Bool) (s : State) : (driveVck1 l s).outReset1 = s.outReset1 := rfl
@[simp] theorem driveVck1_outVck1 (l : Bool) (s : State) : (driveVck1 l s).outVck1 = l := rfl
@[simp] theorem driveVck1_cnt (l : Bool) (s : State) : (driveVck1 l s).cnt = s.cnt := rfl
@[simp] theorem driveVck1_outputs (l : Bool) (s : State) : (driveVck1 l s).outputs = s.outputs ++ [.vck1 l] := rfl
@[simp] theorem driveVck1_reply (l : Bool) (s : State) : (driveVck1 l s).reply = s.reply := rfl
@[simp] theorem driveVck1_inputs (l : Bool) (s : State) : (driveVck1 l s).inputs = s.inputs := rfl

@[simp] theorem driveReset0_activeBank (l : Bool) (s : State) : (driveReset .ch0 l s).activeBank = s.activeBank := rfl
@[simp] theorem driveReset0_busy (l : Bool) (s : State) : (driveReset .ch0 l s).busy = s.busy := rfl
@[simp] theorem driveReset0_pixelsProcessed (l : Bool) (s : State) : (driveReset .ch0 l s).pixelsProcessed = s.pixelsProcessed := rfl
@[simp] theorem driveReset0_pending (l : Bool) (s : State) : (driveReset .ch0 l s).pending = s.pending := rfl
@[simp] theorem driveReset0_bank0 (l : Bool) (s : State) : (driveReset .ch0 l s).bank0 = s.bank0 := rfl
@[simp] theorem driveReset0_bank1 (l : Bool) (s : State) : (driveReset .ch0 l s).bank1 = s.bank1 := rfl
@[simp] theorem driveReset0_fb (l : Bool) (s : State) : (driveReset .ch0 l s).fb = s.fb := rfl
@[simp] theorem driveReset0_ts (l : Bool) (s : State) : (driveReset .ch0 l s).ts = s.ts := rfl
@[simp] theorem driveReset0_ch0 (l : Bool) (s : State) : (driveReset .ch0 l s).ch0 = s.ch0 := rfl
@[simp] theorem driveReset0_ch1 (l : Bool) (s : State) : (driveReset .ch0 l s).ch1 = s.ch1 := rfl
@[simp] theorem driveReset0_clockToggle (l : Bool) (s : State) : (driveReset .ch0 l s).clockToggle = s.clockToggle := rfl
@[simp] theorem driveReset0_prevClockToggle (l : Bool) (s : State) : (driveReset .ch0 l s).prevClockToggle = s.prevClockToggle := rfl
@[simp] theorem driveReset0_outReset0 (l : Bool) (s : State) : (driveReset .ch0 l s).outReset0 = l := rfl
@[simp] theorem driveReset0_outReset1 (l : Bool) (s : State) : (driveReset .ch0 l s).outReset1 = s.outReset1 := rfl
@[simp] theorem driveReset0_outVck1 (l : Bool) (s : State) : (driveReset .ch0 l s).outVck1 = s.outVck1 := rfl
@[simp] theorem driveReset0_cnt (l : Bool) (s : State) : (driveReset .ch0 l s).cnt = s.cnt := rfl
@[simp] theorem driveReset0_outputs (l : Bool) (s : State) : (driveReset .ch0 l s).outputs = s.outputs ++ [.rst .ch0 l] := rfl
@[simp] theorem driveReset0_reply (l : Bool) (s : State) : (driveReset .ch0 l s).reply = s.reply := rfl
@[simp] theorem driveReset0_inputs (l : Bool) (s : State) : (driveReset .ch0 l s).inputs = s.inputs := rfl

@[simp] theorem driveReset1_activeBank (l : Bool) (s : State) : (driveReset .ch1 l s).activeBank = s.activeBank := rfl
@[simp] theorem driveReset1_busy (l : Bool) (s : State) : (driveReset .ch1 l s).busy = s.busy := rfl
@[simp] theorem driveReset1_pixelsProcessed (l : Bool) (s : State) : (driveReset .ch1 l s).pixelsProcessed = s.pixelsProcessed := rfl
@[simp] theorem driveReset1_pending (l : Bool) (s : State) : (driveReset .ch1 l s).pending = s.pending := rfl
@[simp] theorem driveReset1_bank0 (l : Bool) (s : State) : (driveReset .ch1 l s).bank0 = s.bank0 := rfl
@[simp] theorem driveReset1_bank1 (l : Bool) (s : State) : (driveReset .ch1 l s).bank1 = s.bank1 := rfl
@[simp] theorem driveReset1_fb (l : Bool) (s : State) : (driveReset .ch1 l s).fb = s.fb := rfl
@[simp] theorem driveReset1_ts (l : Bool) (s : State) : (driveReset .ch1 l s).ts = s.ts := rfl
@[simp] theorem driveReset1_ch0 (l : Bool) (s : State) : (driveReset .ch1 l s).ch0 = s.ch0 := rfl
@[simp] theorem driveReset1_ch1 (l : Bool) (s : State) : (driveReset .ch1 l s).ch1 = s.ch1 := rfl
@[simp] theorem driveReset1_clockToggle (l : Bool) (s : State) : (driveReset .ch1 l s).clockToggle = s.clockToggle := rfl
@[simp] theorem driveReset1_prevClockToggle (l : Bool) (s : State) : (driveReset .ch1 l s).prevClockToggle = s.prevClockToggle := rfl
@[simp] theorem driveReset1_outReset0 (l : Bool) (s : State) : (driveReset .ch1 l s).outReset0 = s.outReset0 := rfl
@[simp] theorem driveReset1_outReset1 (l : Bool) (s : State) : (driveReset .ch1 l s).outReset1 = l := rfl
@[simp] theorem driveReset1_outVck1 (l : Bool) (s : State) : (driveReset .ch1 l s).outVck1 = s.outVck1 := rfl
@[simp] theorem driveReset1_cnt (l : Bool) (s : State) : (driveReset .ch1 l s).cnt = s.cnt := rfl
@[simp] theorem driveReset1_outputs (l : Bool) (s : State) : (driveReset .ch1 l s).outputs = s.outputs ++ [.rst .ch1 l] := rfl
@[simp] theorem driveReset1_reply (l : Bool) (s : State) : (driveReset .ch1 l s).reply = s.reply := rfl
@[simp] theorem driveReset1_inputs (l : Bool) (s : State) : (driveReset .ch1 l s).inputs = s.inputs := rfl

@[simp] theorem takeInput_activeBank (rest : List Input) (s : State) : (takeInput rest s).activeBank = s.activeBank := rfl
@[simp] theorem takeInput_busy (rest : List Input) (s : State) : (takeInput rest s).busy = s.busy := rfl
@[simp] theorem takeInput_pixelsProcessed (rest : List Input) (s : State) : (takeInput rest s).pixelsProcessed = s.pixelsProcessed := rfl
@[simp] theorem takeInput_pending (rest : List Input) (s : State) : (takeInput rest s).pending = s.pending := rfl
@[simp] theorem takeInput_bank0 (rest : List Input) (s : State) : (takeInput rest s).bank0 = s.bank0 := rfl
@[simp] theorem takeInput_bank1 (rest : List Input) (s : State) : (takeInput rest s).bank1 = s.bank1 := rfl
@[simp] theorem takeInput_fb (rest : List Input) (s : State) : (takeInput rest s).fb = s.fb := rfl
@[simp] theorem takeInput_ts (rest : List Input) (s : State) : (takeInput rest s).ts = s.ts := rfl
@[simp] theorem takeInput_ch0 (rest : List Input) (s : State) : (takeInput rest s).ch0 = s.ch0 := rfl
@[simp] theorem takeInput_ch1 (rest : List Input) (s : State) : (takeInput rest s).ch1 = s.ch1 := rfl
@[simp] theorem takeInput_clockToggle (rest : List Input) (s : State) : (takeInput rest s).clockToggle = s.clockToggle := rfl
@[simp] theorem takeInput_prevClockToggle (rest : List Input) (s : State) : (takeInput rest s).prevClockToggle = s.prevClockToggle := rfl
@[simp] theorem takeInput_outReset0 (rest : List Input) (s : State) : (takeInput rest s).outReset0 = s.outReset0 := rfl
@[simp] theorem takeInput_outReset1 (rest : List Input) (s : State) : (takeInput rest s).outReset1 = s.outReset1 := rfl
@[simp] theorem takeInput_outVck1 (rest : List Input) (s : State) : (takeInput rest s).outVck1 = s.outVck1 := rfl
@[simp] theorem takeInput_cnt (rest : List Input) (s : State) : (takeInput rest s).cnt = s.cnt := rfl
@[simp] theorem takeInput_outputs (rest : List Input) (s : State) : (takeInput rest s).outputs = [] := rfl
@[simp] theorem takeInput_reply (rest : List Input) (s : State) : (takeInput rest s).reply = none := rfl
@[simp] theorem takeInput_inputs (rest : List Input) (s : State) : (takeInput rest s).inputs = rest := rfl

@[simp] theorem withMem_activeBank (s : State) (sp : Space) (m : Memory) : (s.withMem sp m).activeBank = s.activeBank := by
  rcases sp with (_ | _) | _ | _ <;> rfl
@[simp] theorem withMem_busy (s : State) (sp : Space) (m : Memory) : (s.withMem sp m).busy = s.busy := by
  rcases sp with (_ | _) | _ | _ <;> rfl
@[simp] theorem withMem_pixelsProcessed (s : State) (sp : Space) (m : Memory) : (s.withMem sp m).pixelsProcessed = s.pixelsProcessed := by
  rcases sp with (_ | _) | _ | _ <;> rfl
@[simp] theorem withMem_pending (s : State) (sp : Space) (m : Memory) : (s.withMem sp m).pending = s.pending := by
  rcases sp with (_ | _) | _ | _ <;> rfl
@[simp] theorem withMem_ch0 (s : State) (sp : Space) (m : Memory) : (s.withMem sp m).ch0 = s.ch0 := by
  rcases sp with (_ | _) | _ | _ <;> rfl
@[simp] theorem withMem_ch1 (s : State) (sp : Space) (m : Memory) : (s.withMem sp m).ch1 = s.ch1 := by
  rcases sp with (_ | _) | _ | _ <;> rfl
@[simp] theorem withMem_clockToggle (s : State) (sp : Space) (m : Memory) : (s.withMem sp m).clockToggle = s.clockToggle := by
  rcases sp with (_ | _) | _ | _ <;> rfl
@[simp] theorem withMem_prevClockToggle (s : State) (sp : Space) (m : Memory) : (s.withMem sp m).prevClockToggle = s.prevClockToggle := by
  rcases sp with (_ | _) | _ | _ <;> rfl
@[simp] theorem withMem_outReset0 (s : State) (sp : Space) (m : Memory) : (s.withMem sp m).outReset0 = s.outReset0 := by
  rcases sp with (_ | _) | _ | _ <;> rfl
@[simp] theorem withMem_outReset1 (s : State) (sp : Space) (m : Memory) : (s.withMem sp m).outReset1 = s.outReset1 := by
  rcases sp with (_ | _) | _ | _ <;> rfl
@[simp] theorem withMem_outVck1 (s : State) (sp : Space) (m : Memory) : (s.withMem sp m).outVck1 = s.outVck1 := by
  rcases sp with (_ | _) | _ | _ <;> rfl
@[simp] theorem withMem_cnt (s : State) (sp : Space) (m : Memory) : (s.withMem sp m).cnt = s.cnt := by
  rcases sp with (_ | _) | _ | _ <;> rfl
@[simp] theorem withMem_outputs (s : State) (sp : Space) (m : Memory) : (s.withMem sp m).outputs = s.outputs := by
  rcases sp with (_ | _) | _ | _ <;> rfl
@[simp] theorem withMem_reply (s : State) (sp : Space) (m : Memory) : (s.withMem sp m).reply = s.reply := by
  rcases sp with (_ | _) | _ | _ <;> rfl
@[simp] theorem withMem_inputs (s : State) (sp : Space) (m : Memory) : (s.withMem sp m).inputs = s.inputs := by
  rcases sp with (_ | _) | _ | _ <;> rfl

@[simp] theorem withChan_activeBank (s : State) (c : Chan) (ch : Channel) : (s.withChan c ch).activeBank = s.activeBank := by
  cases c <;> rfl
@[simp] theorem withChan_busy (s : State) (c : Chan) (ch : Channel) : (s.withChan c ch).busy = s.busy := by
  cases c <;> rfl
@[simp] theorem withChan_pixelsProcessed (s : State) (c : Chan) (ch : Channel) : (s.withChan c ch).pixelsProcessed = s.pixelsProcessed := by
  cases c <;> rfl
@[simp] theorem withChan_pending (s : State) (c : Chan) (ch : Channel) : (s.withChan c ch).pending = s.pending := by
  cases c <;> rfl
@[simp] theorem withChan_bank0 (s : State) (c : Chan) (ch : Channel) : (s.withChan c ch).bank0 = s.bank0 := by
  cases c <;> rfl
@[simp] theorem withChan_bank1 (s : State) (c : Chan) (ch : Channel) : (s.withChan c ch).bank1 = s.bank1 := by
  cases c <;> rfl
@[simp] theorem withChan_fb (s : State) (c : Chan) (ch : Channel) : (s.withChan c ch).fb = s.fb := by
  cases c <;> rfl
@[simp] theorem withChan_ts (s : State) (c : Chan) (ch : Channel) : (s.withChan c ch).ts = s.ts := by
  cases c <;> rfl
@[simp] theorem withChan_clockToggle (s : State) (c : Chan) (ch : Channel) : (s.withChan c ch).clockToggle = s.clockToggle := by
  cases c <;> rfl
@[simp] theorem withChan_prevClockToggle (s : State) (c : Chan) (ch : Channel) : (s.withChan c ch).prevClockToggle = s.prevClockToggle := by
  cases c <;> rfl
@[simp] theorem withChan_outReset0 (s : State) (c : Chan) (ch : Channel) : (s.withChan c ch).outReset0 = s.outReset0 := by
  cases c <;> rfl
@[simp] theorem withChan_outReset1 (s : State) (c : Chan) (ch : Channel) : (s.withChan c ch).outReset1 = s.outReset1 := by
  cases c <;> rfl
@[simp] theorem withChan_outVck1 (s : State) (c : Chan) (ch : Channel) : (s.withChan c ch).outVck1 = s.outVck1 := by
  cases c <;> rfl
@[simp] theorem withChan_cnt (s : State) (c : Chan) (ch : Channel) : (s.withChan c ch).cnt = s.cnt := by
  cases c <;> rfl
@[simp] theorem withChan_outputs (s : State) (c : Chan) (ch : Channel) : (s.withChan c ch).outputs = s.outputs := by
  cases c <;> rfl
@[simp] theorem withChan_reply (s : State) (c : Chan) (ch : Channel) : (s.withChan c ch).reply = s.reply := by
  cases c <;> rfl
@[simp] theorem withChan_inputs (s : State) (c : Chan) (ch : Channel) : (s.withChan c ch).inputs = s.inputs := by
  cases c <;> rfl

@[simp] theorem mem_withMem (s : State) (sp sp' : Space) (m : Memory) :
    (s.withMem sp m).mem sp' = if sp' = sp then m else s.mem sp' := by
  rcases sp with (_ | _) | _ | _ <;> rcases sp' with (_ | _) | _ | _ <;> rfl

@[simp] theorem chan_withChan (s : State) (c c' : Chan) (ch : Channel) :
    (s.withChan c ch).chan c' = if c' = c then ch else s.chan c' := by
  cases c <;> cases c' <;> rfl

theorem withMem_mem (s : State) (sp : Space) : s.withMem sp (s.mem sp) = s := by
  rcases sp with (_ | _) | _ | _ <;> rfl

theorem otherBank_ne (b : BankId) : otherBank b ≠ b := by cases b <;> decide

@[simp] theorem otherBank_otherBank (b : BankId) : otherBank (otherBank b) = b := by cases b <;> rfl

end Sys2Proof.Machine
end

