-- ==== Sys2Proof/Laws/Ops.lean ====
section
/-! SUPPORT. What each shared operation over the memories and the registers can do: one lemma an operation. -/

namespace Sys2Proof.Machine

@[simp] theorem hiByte_wordOf (a b : Byte) : hiByte (wordOf a b) = a := by
  unfold hiByte wordOf
  ext i hi
  simp [BitVec.getLsbD_eq_getElem, hi, show 8 + i < 16 by omega]

@[simp] theorem loByte_wordOf (a b : Byte) : loByte (wordOf a b) = b := by
  unfold loByte wordOf
  ext i hi
  simp [BitVec.getLsbD_eq_getElem, hi, show i < 16 by omega]

@[simp] theorem wordOf_hiByte_loByte (w : Word) : wordOf (hiByte w) (loByte w) = w := by
  unfold hiByte loByte wordOf
  ext i hi
  by_cases h : i < 8
  · simp [h, hi, BitVec.getLsbD_eq_getElem]
  · simp [h, hi, BitVec.getLsbD_eq_getElem, show 8 + (i - 8) = i by omega]
    omega

/-- A word is its high byte followed by its low byte. -/
theorem wordOf_eq_append (a b : Byte) : wordOf a b = a ++ b := by
  apply BitVec.eq_of_getLsbD_eq
  intro i hi
  have e : (a ++ b : BitVec (8 + 8)).getLsbD i = _ := BitVec.getLsbD_append
  refine Eq.trans ?_ e.symm
  by_cases h : i < 8
  · simp [wordOf, h, hi]
  · simp [wordOf, h, hi, BitVec.getLsbD_of_ge b i (by omega)]

@[simp] theorem mem_emit (e : Output) (s : State) (sp : Space) : (emit e s).mem sp = s.mem sp := by
  rcases sp with (_ | _) | _ | _ <;> rfl

@[simp] theorem mem_countPixel (s : State) (sp : Space) : (countPixel s).mem sp = s.mem sp := by
  rcases sp with (_ | _) | _ | _ <;> rfl

@[simp] theorem mem_answer (v : Word) (s : State) (sp : Space) : (answer v s).mem sp = s.mem sp := by
  rcases sp with (_ | _) | _ | _ <;> rfl

@[simp] theorem mem_withChan (s : State) (c : Chan) (ch : Channel) (sp : Space) :
    (s.withChan c ch).mem sp = s.mem sp := by
  cases c <;> rcases sp with (_ | _) | _ | _ <;> rfl

@[simp] theorem mem_driveReset (c : Chan) (l : Bool) (s : State) (sp : Space) :
    (driveReset c l s).mem sp = s.mem sp := by
  cases c <;> rcases sp with (_ | _) | _ | _ <;> rfl

@[simp] theorem mem_driveVck1 (l : Bool) (s : State) (sp : Space) : (driveVck1 l s).mem sp = s.mem sp := by
  rcases sp with (_ | _) | _ | _ <;> rfl

@[simp] theorem mem_takeInput (rest : List Input) (s : State) (sp : Space) : (takeInput rest s).mem sp = s.mem sp := by
  rcases sp with (_ | _) | _ | _ <;> rfl

/-- A read depends on the space's memory alone. -/
theorem readByte_congr {L : Launch} {s t : State} {sp : Space} (h : s.mem sp = t.mem sp) (a : Nat) :
    readByte L s sp a = readByte L t sp a := by
  unfold readByte; rw [h]

theorem readWord_congr {L : Launch} {s t : State} {sp : Space} (h : s.mem sp = t.mem sp) (i : Nat) :
    readWord L s sp i = readWord L t sp i := by
  unfold readWord; rw [readByte_congr h, readByte_congr h]

theorem tsRead_ram {L : Launch} {i : Nat} (h : L.tileRom (tsWordIndex L i) = none) (s : State) :
    tsRead L s i = readWord L s .tileSource (tsWordIndex L i) := by
  simp [tsRead, h]

theorem tsRead_rom {L : Launch} {i : Nat} {w : Word} (h : L.tileRom (tsWordIndex L i) = some w) (s : State) :
    tsRead L s i = w := by
  simp [tsRead, h]

theorem tsRead_congr {L : Launch} {s t : State} (h : s.ts = t.ts) (i : Nat) : tsRead L s i = tsRead L t i := by
  cases hr : L.tileRom (tsWordIndex L i) with
  | none => rw [tsRead_ram hr, tsRead_ram hr]; exact readWord_congr (sp := .tileSource) h _
  | some w => rw [tsRead_rom hr, tsRead_rom hr]

theorem bankWord_congr {L : Launch} {s t : State} {b : BankId} (h : s.mem (.bank b) = t.mem (.bank b)) (i : Nat) :
    bankWord L s b i = bankWord L t b i :=
  readWord_congr h _

/-- A write of a byte changes that byte of that space, and no other. -/
theorem readByte_writeByte (L : Launch) (sp sp' : Space) (a a' : Nat) (v : Byte) (s : State) :
    readByte L (writeByte sp a v s) sp' a' = if sp' = sp ∧ a' = a then v else readByte L s sp' a' := by
  unfold readByte writeByte
  by_cases h : sp' = sp
  · subst h
    by_cases e : a' = a
    · subst e; simp [Memory.load?_store]
    · simp [Memory.load?_store, e]
  · simp [h]

@[simp] theorem mem_writeByte (sp sp' : Space) (a : Nat) (v : Byte) (s : State) :
    (writeByte sp a v s).mem sp' = if sp' = sp then (s.mem sp).store a v else s.mem sp' := by
  simp [writeByte]

/-- A write of lanes changes the enabled bytes of its word, and no other. -/
theorem readByte_writeLanes (L : Launch) (sp sp' : Space) (i a : Nat) (hi lo : Bool) (d : Word) (s : State) :
    readByte L (writeLanes sp i hi lo d s) sp' a =
      if sp' = sp ∧ lo = true ∧ a = 2 * i + 1 then loByte d
      else if sp' = sp ∧ hi = true ∧ a = 2 * i then hiByte d
      else readByte L s sp' a := by
  cases hi <;> cases lo <;> simp [writeLanes, readByte_writeByte]

/-- The word a write of lanes leaves. -/
theorem readWord_writeLanes (L : Launch) (sp : Space) (i : Nat) (hi lo : Bool) (d : Word) (s : State) :
    readWord L (writeLanes sp i hi lo d s) sp i =
      wordOf (if hi then hiByte d else hiByte (readWord L s sp i))
        (if lo then loByte d else loByte (readWord L s sp i)) := by
  cases hi <;> cases lo <;> simp [readWord, readByte_writeLanes]

/-- A write of lanes changes the memory of its space alone. -/
theorem writeLanes_frame (sp : Space) (i : Nat) (hi lo : Bool) (d : Word) (s : State) :
    ∃ m, writeLanes sp i hi lo d s = s.withMem sp m := by
  cases hi <;> cases lo
  · exact ⟨s.mem sp, by simp [writeLanes, withMem_mem]⟩
  all_goals
    simp only [writeLanes, writeByte, if_true, Bool.false_eq_true, if_false]
    rcases sp with (_ | _) | _ | _ <;> exact ⟨_, rfl⟩

/-- What a write of the tile source can do: lanes of a RAM word, or nothing. -/
theorem tsWrite_cases (L : Launch) (i : Nat) (hi lo : Bool) (d : Word) (s : State) :
    (L.tileRom (tsWordIndex L i) = none ∧ tsWrite L i hi lo d s = writeLanes .tileSource (tsWordIndex L i) hi lo d s) ∨
    ((∃ w, L.tileRom (tsWordIndex L i) = some w) ∧ tsWrite L i hi lo d s = s) := by
  cases hr : L.tileRom (tsWordIndex L i) with
  | none => exact .inl ⟨rfl, by simp [tsWrite, hr]⟩
  | some w => exact .inr ⟨⟨w, rfl⟩, by simp [tsWrite, hr]⟩

/-- Every byte a write of lanes lists is of its word or was listed before. -/
theorem mem_writeLanes_listed {sp : Space} {i : Nat} {hi lo : Bool} {d : Word} {s : State} {c : Host.Cell}
    (h : c ∈ (writeLanes sp i hi lo d s).mem sp) : c.1 / 2 = i ∨ c ∈ s.mem sp := by
  have key : ∀ {t : State} {a v}, a / 2 = i → c ∈ (writeByte sp a v t).mem sp → c.1 / 2 = i ∨ c ∈ t.mem sp := by
    intro t a v ha hc
    rw [mem_writeByte, if_pos rfl] at hc
    rcases Memory.mem_store hc with rfl | hc
    · exact .inl ha
    · exact .inr hc
  have first : c ∈ (if hi then writeByte sp (2 * i) (hiByte d) s else s).mem sp → c.1 / 2 = i ∨ c ∈ s.mem sp := by
    split
    · exact key (by omega)
    · exact .inr
  unfold writeLanes at h
  dsimp only at h
  split at h
  · exact (key (by omega) h).elim .inl first
  · exact first h

/-- A write of the tile source lists no byte of a ROM word. -/
theorem tsWrite_keeps_romUnlisted {L : Launch} {s : State} (h : ∀ c ∈ s.ts, L.tileRom (c.1 / 2) = none) (i : Nat)
    (hi lo : Bool) (d : Word) : ∀ c ∈ (tsWrite L i hi lo d s).ts, L.tileRom (c.1 / 2) = none := by
  intro c hc
  rcases tsWrite_cases L i hi lo d s with ⟨hr, e⟩ | ⟨-, e⟩ <;> rw [e] at hc
  · rcases mem_writeLanes_listed (sp := .tileSource) hc with e | hc
    · rw [e]; exact hr
    · exact h c hc
  · exact h c hc

/-- The frame-buffer address is a word's even byte inside the buffer. -/
theorem fbAddr_lt {L : Launch} (h : L.Allowed) (Y X : Nat) : fbAddr L Y X + 1 < L.fbBytes := by
  obtain ⟨n, hn, e⟩ := h.fbWords
  unfold fbAddr
  rw [e, Nat.mul_comm _ 2, Nat.mul_mod_mul_left]
  have := Nat.mod_lt (Y * 512 + X) hn
  omega

theorem fbAddr_even {L : Launch} (h : L.Allowed) (Y X : Nat) : fbAddr L Y X = 2 * ((Y * 512 + X) % (L.fbBytes / 2)) := by
  obtain ⟨n, hn, e⟩ := h.fbWords
  unfold fbAddr
  rw [e, Nat.mul_comm _ 2, Nat.mul_mod_mul_left, Nat.mul_div_cancel_left n (by omega)]

/-- A memory stays canonical and within its space when a byte of the space is written. -/
theorem Memory.store_bounded {m : Memory} {size a : Nat} {v : Byte} (hb : ∀ c ∈ m, c.1 < size) (ha : a < size) :
    ∀ c ∈ m.store a v, c.1 < size := by
  intro c hc
  rcases Memory.mem_store hc with rfl | hc
  · exact ha
  · exact hb c hc

end Sys2Proof.Machine
end

