-- ==== Sys2Proof/Laws/Adpcm.lean ====
section
/-! SUPPORT. What the sequencer's operations can do, each as one explicit update of the state (42_adpcm.md R190, R196,
R200, R201, R207 to R209). -/

namespace Sys2Proof.Machine

/-- A channel after one advance (R190). -/
def Channel.advanced (ch : Channel) : Channel :=
  if ch.held then ch
  else if ch.nibblePhase then { ch with romPointer := ch.romPointer + 1, nibblePhase := false }
  else { ch with nibblePhase := true }

/-- What one advance emits (R190). -/
def Channel.played (L : Launch) (c : Chan) (ch : Channel) : List Output :=
  if ch.held then []
  else [.nib c (if ch.nibblePhase then lowNibble (romRead L c ch.romPointer.toNat)
    else highNibble (romRead L c ch.romPointer.toNat))]

@[simp] theorem Channel.advanced_held (ch : Channel) : ch.advanced.held = ch.held := by
  unfold Channel.advanced; split
  · rfl
  · split <;> rfl

theorem Channel.advanced_of_held {ch : Channel} (h : ch.held = true) : ch.advanced = ch := by
  rw [Channel.advanced, if_pos h]

theorem Channel.advanced_high {ch : Channel} (h : ch.held = false) (hp : ch.nibblePhase = false) :
    ch.advanced = { ch with nibblePhase := true } := by
  rw [Channel.advanced, if_neg (by simp [h]), if_neg (by simp [hp])]

theorem Channel.advanced_low {ch : Channel} (h : ch.held = false) (hp : ch.nibblePhase = true) :
    ch.advanced = { ch with romPointer := ch.romPointer + 1, nibblePhase := false } := by
  rw [Channel.advanced, if_neg (by simp [h]), if_pos hp]

theorem Channel.played_of_held {L : Launch} {c : Chan} {ch : Channel} (h : ch.held = true) : ch.played L c = [] := by
  rw [Channel.played, if_pos h]

theorem Channel.played_high {L : Launch} {c : Chan} {ch : Channel} (h : ch.held = false) (hp : ch.nibblePhase = false) :
    ch.played L c = [.nib c (highNibble (romRead L c ch.romPointer.toNat))] := by
  rw [Channel.played, if_neg (by simp [h]), if_neg (by simp [hp])]

theorem Channel.played_low {L : Launch} {c : Chan} {ch : Channel} (h : ch.held = false) (hp : ch.nibblePhase = true) :
    ch.played L c = [.nib c (lowNibble (romRead L c ch.romPointer.toNat))] := by
  rw [Channel.played, if_neg (by simp [h]), if_pos hp]

/-- An advance changes the channel and the outputs, nothing else. -/
theorem advance_eq (L : Launch) (c : Chan) (s : State) :
    advance L c s =
      { s.withChan c (s.chan c).advanced with outputs := s.outputs ++ (s.chan c).played L c } := by
  unfold advance Channel.advanced Channel.played
  by_cases h : (s.chan c).held = true
  · rw [if_pos h, if_pos h, if_pos h, List.append_nil]
    cases c <;> rfl
  · rw [if_neg h, if_neg h, if_neg h]
    by_cases hp : (s.chan c).nibblePhase = true
    · rw [if_pos hp, if_pos hp, if_pos hp]; cases c <;> rfl
    · rw [if_neg hp, if_neg hp, if_neg hp]; cases c <;> rfl

/-- The advance phase changes channel 1, its two lines and the outputs, nothing else. -/
theorem advancePhase_eq (L : Launch) (s : State) :
    advancePhase L s =
      if s.ch1.advanced.romPointer = ch1Loop then
        { s with
          ch1 := { s.ch1.advanced with romPointer := 0 }
          outReset1 := false
          outVck1 := false
          outputs := s.outputs ++ s.ch1.played L .ch1 ++ [.rst .ch1 true, .vck1 false, .rst .ch1 false] }
      else
        { s with
          ch1 := s.ch1.advanced
          outVck1 := false
          outputs := s.outputs ++ s.ch1.played L .ch1 ++ [.vck1 false] } := by
  unfold advancePhase
  rw [advance_eq]
  change (if s.ch1.advanced.romPointer = ch1Loop then _ else _) = _
  split
  · ext <;> simp [driveReset, driveVck1, emit, State.withChan, State.chan]
  · rfl

/-- A level that is no falling edge is remembered, and nothing else happens (R207). -/
theorem clockLevel_level (L : Launch) {l : Bool} {s : State} (h : s.prevClockToggle = false ∨ l = true) :
    clockLevel L l s = { s with prevClockToggle := l } := by
  unfold clockLevel
  rw [if_neg (by rcases h with h | h <;> simp [h])]

/-- A falling edge with the toggle at 1 (R207, R208). -/
theorem clockLevel_pulse (L : Launch) {s : State} (h : s.prevClockToggle = true) (hc : s.clockToggle = true) :
    clockLevel L false s = { s with
      prevClockToggle := false, clockToggle := false, outVck1 := true, outputs := s.outputs ++ [.vck1 true] } := by
  unfold clockLevel fallingEdge
  rw [if_pos (by simp [h]), if_pos hc]
  ext <;> simp [pulsePhase, driveVck1, emit, hc]

/-- A falling edge with the toggle at 0 (R207, R209). -/
theorem clockLevel_advance (L : Launch) {s : State} (h : s.prevClockToggle = true) (hc : s.clockToggle = false) :
    clockLevel L false s = { advancePhase L s with prevClockToggle := false, clockToggle := true } := by
  have e : (advancePhase L s).clockToggle = false := by rw [advancePhase_eq]; split <;> exact hc
  unfold clockLevel fallingEdge
  rw [if_pos (by simp [h]), if_neg (by simp [hc])]
  dsimp only
  rw [e]; rfl

/-- The three things a level can be. -/
theorem clockLevel_cases (l : Bool) (s : State) :
    (s.prevClockToggle = false ∨ l = true) ∨
    (s.prevClockToggle = true ∧ l = false ∧ s.clockToggle = true) ∨
    (s.prevClockToggle = true ∧ l = false ∧ s.clockToggle = false) := by
  cases s.prevClockToggle <;> cases l <;> cases s.clockToggle <;> simp

/-- A channel-1 pointer in range is in range after an advance, or stands at the loop address (R209, R211). -/
theorem Channel.advanced_le {ch : Channel} (h : ch.romPointer.toNat < 0x2000) :
    ch.advanced.romPointer.toNat < 0x2000 ∨ ch.advanced.romPointer = ch1Loop := by
  unfold Channel.advanced
  split
  · exact .inl h
  · split
    · by_cases e : ch.romPointer.toNat = 0x1FFF
      · refine .inr (BitVec.eq_of_toNat_eq ?_)
        show (ch.romPointer + 1).toNat = 0x2000
        rw [BitVec.toNat_add, e]; rfl
      · refine .inl ?_
        show (ch.romPointer + 1).toNat < 0x2000
        rw [BitVec.toNat_add]
        show (ch.romPointer.toNat + 1) % 2 ^ 21 < 0x2000
        omega
    · exact .inl h

/-- The channel-1 clock neither reads nor writes channel 0, its reset line and the earlier outputs: what it does over other
values of them is the same, with the same outputs added (R236). -/
theorem clockLevel_over (L : Launch) (l : Bool) (s : State) :
    ∃ δ, ∀ (c : Channel) (r : Bool) (o : List Output),
      clockLevel L l { s with ch0 := c, outReset0 := r, outputs := o } =
        { clockLevel L l s with ch0 := c, outReset0 := r, outputs := o ++ δ } := by
  rcases clockLevel_cases l s with hc | ⟨h1, rfl, h3⟩ | ⟨h1, rfl, h3⟩
  · refine ⟨[], fun c r o => ?_⟩
    rw [clockLevel_level _ hc, clockLevel_level _ (s := { s with ch0 := c, outReset0 := r, outputs := o }) hc,
      List.append_nil]
  · refine ⟨[.vck1 true], fun c r o => ?_⟩
    rw [clockLevel_pulse _ h1 h3, clockLevel_pulse _ (s := { s with ch0 := c, outReset0 := r, outputs := o }) h1 h3]
  · refine ⟨s.ch1.played L .ch1 ++ if s.ch1.advanced.romPointer = ch1Loop then
        [.rst .ch1 true, .vck1 false, .rst .ch1 false] else [.vck1 false], fun c r o => ?_⟩
    rw [clockLevel_advance _ h1 h3, clockLevel_advance _ (s := { s with ch0 := c, outReset0 := r, outputs := o }) h1 h3,
      advancePhase_eq, advancePhase_eq]
    dsimp only
    by_cases hl : s.ch1.advanced.romPointer = ch1Loop
    · rw [if_pos hl, if_pos hl, if_pos hl, List.append_assoc]
    · rw [if_neg hl, if_neg hl, if_neg hl, List.append_assoc]

/-! The pointer patches. -/

theorem toNat_clearLowByte (p : BitVec 21) : (clearLowByte p).toNat = 256 * (p.toNat / 256) := by
  have e : clearLowByte p = (p >>> 8) <<< 8 := by
    unfold clearLowByte
    have hk : ∀ i, i < 21 → (~~~0x0000FF#21).getLsbD i = decide (8 ≤ i) := by decide
    ext i hi
    have := hk i hi
    rw [BitVec.getElem_and, ← BitVec.getLsbD_eq_getElem (h := hi) (x := ~~~0x0000FF#21), this]
    by_cases h : i < 8
    · simp [h]
    · simp [h, show 8 ≤ i by omega, show 8 + (i - 8) = i by omega, BitVec.getLsbD_eq_getElem, hi]
  rw [e, BitVec.toNat_shiftLeft, BitVec.toNat_ushiftRight, Nat.shiftLeft_eq, Nat.shiftRight_eq_div_pow]
  have := p.isLt
  omega

/-- The fields of R200's patch: the written bits, the bits below and the bits above. -/
theorem patchLow_fields (p : BitVec 21) (d : Byte) :
    (patchLow p d).extractLsb' 8 8 = d ∧ (patchLow p d).extractLsb' 0 8 = p.extractLsb' 0 8 ∧
      (patchLow p d).extractLsb' 16 5 = p.extractLsb' 16 5 := by
  unfold patchLow
  refine ⟨?_, ?_, ?_⟩ <;> ext i hi <;>
    simp only [BitVec.getElem_extractLsb', BitVec.getLsbD_or, BitVec.getLsbD_and, BitVec.getLsbD_shiftLeft,
      BitVec.getLsbD_setWidth]
  · have : (~~~0x00FF00#21).getLsbD (8 + i) = false := by clear * - hi; revert i; decide
    rw [this]; simp [show i < 21 by omega, show 8 + i < 21 by omega, BitVec.getLsbD_eq_getElem, hi]
  · have : (~~~0x00FF00#21).getLsbD (0 + i) = true := by clear * - hi; revert i; decide
    rw [this]; simp [show i < 8 by omega]
  · have : (~~~0x00FF00#21).getLsbD (16 + i) = true := by clear * - hi; revert i; decide
    rw [this]; simp [BitVec.getLsbD_of_ge d (16 + i - 8) (by omega)]

/-- The fields of R201's patch: the written bits, the bits below and the bits above. -/
theorem patchHigh_fields (p : BitVec 21) (d : Byte) :
    (patchHigh p d).extractLsb' 16 3 = d.extractLsb' 0 3 ∧ (patchHigh p d).extractLsb' 0 16 = p.extractLsb' 0 16 ∧
      (patchHigh p d).extractLsb' 19 2 = p.extractLsb' 19 2 := by
  unfold patchHigh
  refine ⟨?_, ?_, ?_⟩ <;> ext i hi <;>
    simp only [BitVec.getElem_extractLsb', BitVec.getLsbD_or, BitVec.getLsbD_and, BitVec.getLsbD_shiftLeft,
      BitVec.getLsbD_setWidth, BitVec.getLsbD_extractLsb']
  · have : (~~~0x070000#21).getLsbD (16 + i) = false := by clear * - hi; revert i; decide
    rw [this]; simp [show i < 21 by omega, show 16 + i < 21 by omega, hi]
  · have : (~~~0x070000#21).getLsbD (0 + i) = true := by clear * - hi; revert i; decide
    rw [this]; simp [show i < 16 by omega]
  · have : (~~~0x070000#21).getLsbD (19 + i) = true := by clear * - hi; revert i; decide
    rw [this]; simp [show ¬ (19 + i - 16 < 3) by omega]

theorem toNat_patchLow (p : BitVec 21) (d : Byte) :
    (patchLow p d).toNat = 65536 * (p.toNat / 65536) + 256 * d.toNat + p.toNat % 256 := by
  obtain ⟨h1, h2, h3⟩ := patchLow_fields p d
  have e1 := congrArg BitVec.toNat h1
  have e2 := congrArg BitVec.toNat h2
  have e3 := congrArg BitVec.toNat h3
  simp only [BitVec.extractLsb'_toNat, Nat.shiftRight_eq_div_pow] at e1 e2 e3
  have := p.isLt
  have := (patchLow p d).isLt
  omega

theorem toNat_patchHigh (p : BitVec 21) (d : Byte) :
    (patchHigh p d).toNat = 524288 * (p.toNat / 524288) + 65536 * (d.toNat % 8) + p.toNat % 65536 := by
  obtain ⟨h1, h2, h3⟩ := patchHigh_fields p d
  have e1 := congrArg BitVec.toNat h1
  have e2 := congrArg BitVec.toNat h2
  have e3 := congrArg BitVec.toNat h3
  simp only [BitVec.extractLsb'_toNat, Nat.shiftRight_eq_div_pow] at e1 e2 e3
  have := p.isLt
  have := (patchHigh p d).isLt
  omega

end Sys2Proof.Machine
end

