-- ==== Sys2Proof/Laws/Commands.lean ====
section
/-! SUPPORT. The drawing commands as one list of pixels in the order they are drawn, and what drawing such a list does:
which bytes it leaves alone, which write wins, what it counts (41_dma_commands.md R156 to R166). -/

namespace Sys2Proof.Machine

/-- Two folds agree when their steps agree on every state that an invariant of the fold admits. -/
theorem foldl_congr_of_inv {α β : Type} {P : α → Prop} {f g : α → β → α} (hstep : ∀ s x, P s → P (f s x))
    (hfg : ∀ s x, P s → f s x = g s x) (l : List β) (s : α) (hs : P s) : l.foldl f s = l.foldl g s := by
  induction l generalizing s with
  | nil => rfl
  | cons x l ih => simp only [List.foldl_cons, ← hfg s x hs]; exact ih _ (hstep s x hs)

/-- An invariant of a fold's step is an invariant of the fold. -/
theorem foldl_inv {α β : Type} {P : α → Prop} {f : α → β → α} (hstep : ∀ s x, P s → P (f s x)) (l : List β) (s : α)
    (hs : P s) : P (l.foldl f s) := by
  induction l generalizing s with
  | nil => exact hs
  | cons x l ih => exact ih _ (hstep s x hs)

/-- A fold over lists within lists is one fold over their concatenation. -/
theorem foldl_flatMap_list {α β γ : Type} (f : α → γ → α) (g : β → List γ) (l : List β) (s : α) :
    (l.flatMap g).foldl f s = l.foldl (fun s x => (g x).foldl f s) s := by
  induction l generalizing s with
  | nil => rfl
  | cons x l ih => simp [List.flatMap_cons, List.foldl_append, ih]

/-- The state differs in the frame buffer and the running count alone. -/
def SameButDrawing (s t : State) : Prop := t = { s with fb := t.fb, cnt := t.cnt }

theorem SameButDrawing.refl (s : State) : SameButDrawing s s := rfl

theorem SameButDrawing.trans {s t u : State} (h : SameButDrawing s t) (k : SameButDrawing t u) :
    SameButDrawing s u := by
  unfold SameButDrawing at *; rw [k, h]

theorem SameButDrawing.ts {s t : State} (h : SameButDrawing s t) : t.ts = s.ts := by rw [h]

theorem SameButDrawing.mem {s t : State} (h : SameButDrawing s t) {sp : Space} (hsp : sp ≠ .frameBuffer) :
    t.mem sp = s.mem sp := by
  rw [h]; rcases sp with (_ | _) | _ | _ <;> first | rfl | exact absurd rfl hsp

/-! One pixel. -/

/-- A pixel of a tile draw in place: row, column and source value. -/
abbrev Site := Nat × Nat × Nibble

/-- The pixel is written (R156). -/
def written (trn : Bool) (p : Site) : Bool := !trn || p.2.2 != 0

theorem written_iff {trn : Bool} {p : Site} : written trn p = true ↔ trn = false ∨ p.2.2 ≠ 0 := by simp [written]

/-- The pixel byte's address. -/
def siteAddr (L : Launch) (p : Site) : Nat := fbAddr L p.1 p.2.1 + 1

/-- The byte a written pixel stores (R156, R164). -/
def siteValue (base : Byte) (p : Site) : Byte := base ||| p.2.2.setWidth 8

theorem plotPixel_frame (L : Launch) (trn : Bool) (base : Byte) (Y X : Nat) (pix : Nibble) (s : State) :
    SameButDrawing s (plotPixel L trn base Y X pix s) := by
  unfold plotPixel
  split
  · rfl
  · split <;> rfl

/-- A pixel in terms of its being written: what one pixel does to the state. -/
theorem plotPixel_eq (L : Launch) (trn : Bool) (base : Byte) (p : Site) (s : State) :
    plotPixel L trn base p.1 p.2.1 p.2.2 s =
      if written trn p then countPixel (fbWritePix L p.1 p.2.1 (siteValue base p) s)
      else if L.countTransparentSkips then countPixel s
      else s := by
  unfold plotPixel
  by_cases h : trn = false ∨ p.2.2 ≠ 0
  · rw [if_pos h, if_pos (written_iff.2 h)]; rfl
  · rw [if_neg h, if_neg (mt written_iff.1 h)]

theorem plotPixel_read (L : Launch) (trn : Bool) (base : Byte) (p : Site) (s : State) (a : Nat) :
    readByte L (plotPixel L trn base p.1 p.2.1 p.2.2 s) .frameBuffer a =
      if written trn p ∧ a = siteAddr L p then siteValue base p else readByte L s .frameBuffer a := by
  rw [plotPixel_eq]
  cases hw : written trn p
  · simp only [Bool.false_eq_true, if_false, false_and]
    split
    · exact readByte_congr (mem_countPixel _ _) _
    · rfl
  · simp only [if_true, true_and]
    rw [readByte_congr (mem_countPixel _ _), fbWritePix, readByte_writeByte]
    simp only [true_and]; rfl

/-- What a pixel adds to the count (R156, R158). -/
theorem plotPixel_cnt (L : Launch) (trn : Bool) (base : Byte) (p : Site) (s : State) :
    (plotPixel L trn base p.1 p.2.1 p.2.2 s).cnt =
      s.cnt + if written trn p || L.countTransparentSkips then 1 else 0 := by
  rw [plotPixel_eq]
  cases hw : written trn p
  · cases L.countTransparentSkips <;> simp
  · simp only [if_true, Bool.true_or, countPixel_cnt]; rfl

/-- Drawing a pixel does not read the frame buffer. -/
theorem plotPixel_congr {L : Launch} {trn : Bool} {base : Byte} {p : Site} {s t : State} (h : s.fb = t.fb) :
    (plotPixel L trn base p.1 p.2.1 p.2.2 s).fb = (plotPixel L trn base p.1 p.2.1 p.2.2 t).fb := by
  rw [plotPixel_eq, plotPixel_eq]
  cases written trn p
  · cases L.countTransparentSkips <;> exact h
  · show s.fb.store _ _ = t.fb.store _ _
    rw [h]

/-! A list of pixels. -/

/-- Draw a list of pixels, in order. -/
def paint (L : Launch) (trn : Bool) (base : Byte) (ps : List Site) (s : State) : State :=
  ps.foldl (fun s p => plotPixel L trn base p.1 p.2.1 p.2.2 s) s

@[simp] theorem paint_nil (L : Launch) (trn : Bool) (base : Byte) (s : State) : paint L trn base [] s = s := rfl

@[simp] theorem paint_cons (L : Launch) (trn : Bool) (base : Byte) (p : Site) (ps : List Site) (s : State) :
    paint L trn base (p :: ps) s = paint L trn base ps (plotPixel L trn base p.1 p.2.1 p.2.2 s) := rfl

theorem paint_append (L : Launch) (trn : Bool) (base : Byte) (ps qs : List Site) (s : State) :
    paint L trn base (ps ++ qs) s = paint L trn base qs (paint L trn base ps s) := List.foldl_append

theorem paint_frame (L : Launch) (trn : Bool) (base : Byte) (ps : List Site) (s : State) :
    SameButDrawing s (paint L trn base ps s) :=
  foldl_inv (P := SameButDrawing s) (fun _ _ h => h.trans (plotPixel_frame ..)) ps s (.refl s)

/-- A byte that no written pixel of the list addresses is left alone. -/
theorem paint_untouched {L : Launch} {trn : Bool} {base : Byte} {ps : List Site} {s : State} {a : Nat}
    (h : ∀ p ∈ ps, written trn p → a ≠ siteAddr L p) :
    readByte L (paint L trn base ps s) .frameBuffer a = readByte L s .frameBuffer a := by
  induction ps generalizing s with
  | nil => rfl
  | cons p ps ih =>
    rw [paint_cons, ih fun q hq => h q (by simp [hq]), plotPixel_read, if_neg]
    rintro ⟨hw, e⟩
    exact h p (by simp) hw e

/-- The last written pixel of a byte decides it (R163). -/
theorem paint_last {L : Launch} {trn : Bool} {base : Byte} {ps qs : List Site} {p : Site} {s : State}
    (hw : written trn p) (h : ∀ q ∈ qs, written trn q → siteAddr L p ≠ siteAddr L q) :
    readByte L (paint L trn base (ps ++ p :: qs) s) .frameBuffer (siteAddr L p) = siteValue base p := by
  rw [paint_append, paint_cons, paint_untouched h, plotPixel_read, if_pos ⟨hw, rfl⟩]

/-- What a list of pixels adds to the count. -/
theorem paint_cnt (L : Launch) (trn : Bool) (base : Byte) (ps : List Site) (s : State) :
    (paint L trn base ps s).cnt =
      s.cnt + BitVec.ofNat 32 (ps.countP fun p => written trn p || L.countTransparentSkips) := by
  induction ps generalizing s with
  | nil => simp
  | cons p ps ih =>
    rw [paint_cons, ih, plotPixel_cnt, List.countP_cons, BitVec.add_assoc]
    congr 1
    split <;> simp [BitVec.ofNat_add, BitVec.add_comm]

/-- Drawing does not read the frame buffer or the count. -/
theorem paint_congr {L : Launch} {trn : Bool} {base : Byte} {ps : List Site} {s t : State} (h : s.fb = t.fb) :
    (paint L trn base ps s).fb = (paint L trn base ps t).fb := by
  induction ps generalizing s t with
  | nil => exact h
  | cons p ps ih => exact ih (plotPixel_congr h)

/-! The tile draw. -/

/-- Row `r` of a tile at its corner. -/
def rowSites (L : Launch) (s : State) (code r Y X : Nat) : List Site :=
  (List.range 8).map fun q =>
    (Y, X + q, pixelOf L (tsRead L s (16 * code + 2 * r)) (tsRead L s (16 * code + 2 * r + 1)) q)

/-- The pixels of a tile draw in the order they are drawn (R156). -/
def tileSites (L : Launch) (s : State) (code0 : Nat) (b : Block) : List Site :=
  (tileWalk code0 b.w b.h).flatMap fun t =>
    (List.range 8).flatMap fun r => rowSites L s t.2 r (b.y + 8 * t.1.2 + r) (b.x + 8 * t.1.1)

theorem rowSites_congr {L : Launch} {s t : State} (h : s.ts = t.ts) (code r Y X : Nat) :
    rowSites L s code r Y X = rowSites L t code r Y X := by
  simp only [rowSites, tsRead_congr h]

theorem drawRow_eq_paint (L : Launch) (trn : Bool) (base : Byte) (code r Y X : Nat) (s : State) :
    drawRow L trn base code r Y X s = paint L trn base (rowSites L s code r Y X) s := by
  simp only [drawRow, paint, rowSites, List.foldl_map]

/-- A tile draw draws its pixels in order, and reads the tile source as it stands before. -/
theorem tileDraw_eq_paint (L : Launch) (trn : Bool) (code0 : Nat) (b : Block) (colour : Byte) (s : State) :
    tileDraw L trn code0 b colour s = paint L trn (basePix colour) (tileSites L s code0 b) s := by
  have hrow : ∀ (s' : State) (code r Y X : Nat), SameButDrawing s s' →
      drawRow L trn (basePix colour) code r Y X s' = paint L trn (basePix colour) (rowSites L s code r Y X) s' := by
    intro s' code r Y X h
    rw [drawRow_eq_paint, rowSites_congr h.ts]
  have htile : ∀ (s' : State) (code Y X : Nat), SameButDrawing s s' →
      drawTile L trn (basePix colour) code Y X s' =
        paint L trn (basePix colour) ((List.range 8).flatMap fun r => rowSites L s code r (Y + r) X) s' := by
    intro s' code Y X h
    rw [drawTile, paint, foldl_flatMap_list]
    refine foldl_congr_of_inv (P := SameButDrawing s) (fun u r hu => ?_) (fun u r hu => hrow u code r (Y + r) X hu) _ _ h
    rw [hrow u code r (Y + r) X hu]
    exact hu.trans (paint_frame ..)
  rw [tileDraw, tileSites, paint, foldl_flatMap_list]
  refine foldl_congr_of_inv (P := SameButDrawing s) (fun u t hu => ?_) (fun u t hu => htile u _ _ _ hu) _ _ (.refl s)
  rw [htile u _ _ _ hu]
  exact hu.trans (paint_frame ..)

theorem tileDraw_frame (L : Launch) (trn : Bool) (code0 : Nat) (b : Block) (colour : Byte) (s : State) :
    SameButDrawing s (tileDraw L trn code0 b colour s) := by
  rw [tileDraw_eq_paint]; exact paint_frame ..

/-- Membership in the walk of tiles. -/
theorem mem_tileOrder {w h j k : Nat} : (j, k) ∈ tileOrder w h ↔ j < w ∧ k < h := by
  simp [tileOrder]

theorem length_tileOrder (w h : Nat) : (tileOrder w h).length = w * h := by
  simp [tileOrder, List.length_flatMap]

/-- Tile (j, k) stands at place `j·h + k` of the walk (R159). -/
theorem tileOrder_get (w h j k : Nat) (hj : j < w) (hk : k < h) : (tileOrder w h)[j * h + k]? = some (j, k) := by
  induction w generalizing j with
  | zero => omega
  | succ w ih =>
    have e : tileOrder (w + 1) h = tileOrder w h ++ (List.range h).map (fun k => (w, k)) := by
      simp [tileOrder, List.range_succ, List.flatMap_append]
    rw [e]
    by_cases hjw : j < w
    · rw [List.getElem?_append_left, ih j hjw]
      rw [length_tileOrder]
      calc j * h + k < j * h + h := by omega
        _ = (j + 1) * h := by ring
        _ ≤ w * h := Nat.mul_le_mul_right _ hjw
    · obtain rfl : j = w := by omega
      rw [List.getElem?_append_right (by rw [length_tileOrder]; omega), length_tileOrder]
      simp [hk]

/-- The tiles of a walk with their source tiles. -/
theorem tileWalk_eq_map (code0 w h : Nat) :
    tileWalk code0 w h = (tileOrder w h).map fun t => (t, code0 + t.1 * h + t.2) := by
  refine List.ext_getElem? fun n => ?_
  rw [tileWalk, List.getElem?_zipIdx, List.getElem?_map]
  by_cases hn : n < w * h
  · have hh : 0 < h := by
      rcases Nat.eq_zero_or_pos h with e | e
      · simp [e] at hn
      · exact e
    have h2 := tileOrder_get w h (n / h) (n % h) (Nat.div_lt_of_lt_mul (by rwa [Nat.mul_comm])) (Nat.mod_lt _ hh)
    have e : n / h * h + n % h = n := Nat.div_add_mod' n h
    rw [e] at h2
    rw [h2]
    simp only [Option.map_some, Option.some.injEq, Prod.mk.injEq, true_and]
    omega
  · have e : (tileOrder w h)[n]? = none := by rw [List.getElem?_eq_none_iff, length_tileOrder]; omega
    rw [e]; rfl

/-- The pixels (j, k, r, q) of a block in the order of the walk. -/
def blockPixels (w h : Nat) : List (Nat × Nat × Nat × Nat) :=
  (List.range w).flatMap fun j => (List.range h).flatMap fun k => (List.range 8).flatMap fun r =>
    (List.range 8).map fun q => (j, k, r, q)

/-- Pixel (j, k, r, q) of a block, in place. -/
def siteOf (L : Launch) (s : State) (code0 : Nat) (b : Block) (p : Nat × Nat × Nat × Nat) : Site :=
  (b.y + 8 * p.2.1 + p.2.2.1, b.x + 8 * p.1 + p.2.2.2, tilePixel L s code0 b.h p.1 p.2.1 p.2.2.1 p.2.2.2)

theorem tileSites_eq_map (L : Launch) (s : State) (code0 : Nat) (b : Block) :
    tileSites L s code0 b = (blockPixels b.w b.h).map (siteOf L s code0 b) := by
  simp only [tileSites, tileWalk_eq_map, tileOrder, blockPixels, rowSites, List.flatMap_map, List.flatMap_assoc,
    List.map_flatMap, List.map_map]
  rfl

theorem mem_blockPixels {w h j k r q : Nat} :
    (j, k, r, q) ∈ blockPixels w h ↔ j < w ∧ k < h ∧ r < 8 ∧ q < 8 := by
  simp only [blockPixels, List.mem_flatMap, List.mem_map, List.mem_range, Prod.mk.injEq]
  constructor
  · rintro ⟨_, hj, _, hk, _, hr, _, hq, rfl, rfl, rfl, rfl⟩; exact ⟨hj, hk, hr, hq⟩
  · rintro ⟨hj, hk, hr, hq⟩; exact ⟨_, hj, _, hk, _, hr, _, hq, rfl, rfl, rfl, rfl⟩

/-- The walk visits the pixels in rising place. -/
theorem blockPixels_sorted (w h : Nat) :
    (blockPixels w h).Pairwise fun p p' =>
      walkPlace h p.1 p.2.1 p.2.2.1 p.2.2.2 < walkPlace h p'.1 p'.2.1 p'.2.2.1 p'.2.2.2 := by
  unfold blockPixels walkPlace
  refine List.pairwise_flatMap.2 ⟨fun j _ => List.pairwise_flatMap.2 ⟨fun k _ => List.pairwise_flatMap.2
    ⟨fun r _ => ?_, ?_⟩, ?_⟩, ?_⟩
  · rw [List.pairwise_map]
    exact List.pairwise_lt_range.imp fun h => by simpa using h
  · refine List.pairwise_lt_range.imp fun {r r'} hr => ?_
    simp only [List.mem_map, List.mem_range]
    rintro _ ⟨q, hq, rfl⟩ _ ⟨q', hq', rfl⟩
    dsimp only; omega
  · refine List.pairwise_lt_range.imp fun {k k'} hk => ?_
    simp only [List.mem_flatMap, List.mem_map, List.mem_range]
    rintro _ ⟨r, hr, q, hq, rfl⟩ _ ⟨r', hr', q', hq', rfl⟩
    dsimp only; omega
  · refine List.pairwise_lt_range.imp fun {j j'} hj => ?_
    simp only [List.mem_flatMap, List.mem_map, List.mem_range]
    rintro _ ⟨k, hk, r, hr, q, hq, rfl⟩ _ ⟨k', hk', r', hr', q', hq', rfl⟩
    have := Nat.mul_le_mul_right h (show j + 1 ≤ j' from hj)
    have e : (j + 1) * h = j * h + h := by ring
    dsimp only; omega

/-- The pixel byte of a pixel that is written, and that no later written pixel reaches, holds that pixel's value. -/
theorem tileDraw_read_last {L : Launch} {trn : Bool} {code0 : Nat} {b : Block} {colour : Byte} {s : State}
    {j k r q : Nat} (hj : j < b.w) (hk : k < b.h) (hr : r < 8) (hq : q < 8)
    (hw : written trn (siteOf L s code0 b (j, k, r, q)))
    (h : ∀ j' k' r' q', j' < b.w → k' < b.h → r' < 8 → q' < 8 → walkPlace b.h j k r q < walkPlace b.h j' k' r' q' →
      written trn (siteOf L s code0 b (j', k', r', q')) →
      fbAddr L (b.y + 8 * k' + r') (b.x + 8 * j' + q') ≠ fbAddr L (b.y + 8 * k + r) (b.x + 8 * j + q)) :
    pixelByte L (tileDraw L trn code0 b colour s) (b.y + 8 * k + r) (b.x + 8 * j + q) =
      basePix colour ||| (tilePixel L s code0 b.h j k r q).setWidth 8 := by
  obtain ⟨A, B, e⟩ := List.append_of_mem (mem_blockPixels.2 ⟨hj, hk, hr, hq⟩ : (j, k, r, q) ∈ blockPixels b.w b.h)
  have hs := blockPixels_sorted b.w b.h
  rw [e, List.pairwise_append, List.pairwise_cons] at hs
  have hlast : ∀ p ∈ B.map (siteOf L s code0 b), written trn p →
      siteAddr L (siteOf L s code0 b (j, k, r, q)) ≠ siteAddr L p := by
    intro p hp hpw
    obtain ⟨⟨j', k', r', q'⟩, hmem, rfl⟩ := List.mem_map.1 hp
    obtain ⟨h1, h2, h3, h4⟩ := mem_blockPixels.1
      (show (j', k', r', q') ∈ blockPixels b.w b.h by rw [e]; simp [hmem])
    exact fun e => h j' k' r' q' h1 h2 h3 h4 (hs.2.1.1 (j', k', r', q') hmem) hpw (Nat.succ.inj e).symm
  have hsites : tileSites L s code0 b =
      A.map (siteOf L s code0 b) ++ siteOf L s code0 b (j, k, r, q) :: B.map (siteOf L s code0 b) := by
    rw [tileSites_eq_map, e, List.map_append, List.map_cons]
  rw [tileDraw_eq_paint, hsites]
  exact paint_last (base := basePix colour) (ps := A.map (siteOf L s code0 b)) (s := s) hw hlast

/-- A byte that no written pixel addresses is left alone. -/
theorem tileDraw_read_untouched {L : Launch} {trn : Bool} {code0 : Nat} {b : Block} {colour : Byte} {s : State}
    {a : Nat} (h : ∀ j k r q, j < b.w → k < b.h → r < 8 → q < 8 → written trn (siteOf L s code0 b (j, k, r, q)) →
      a ≠ fbAddr L (b.y + 8 * k + r) (b.x + 8 * j + q) + 1) :
    readByte L (tileDraw L trn code0 b colour s) .frameBuffer a = readByte L s .frameBuffer a := by
  rw [tileDraw_eq_paint, tileSites_eq_map]
  refine paint_untouched fun p hp hpw => ?_
  obtain ⟨⟨j, k, r, q⟩, hmem, rfl⟩ := List.mem_map.1 hp
  obtain ⟨h1, h2, h3, h4⟩ := mem_blockPixels.1 hmem
  exact h j k r q h1 h2 h3 h4 hpw

/-- What a tile draw adds to the count. -/
theorem tileDraw_cnt (L : Launch) (trn : Bool) (code0 : Nat) (b : Block) (colour : Byte) (s : State) :
    (tileDraw L trn code0 b colour s).cnt =
      s.cnt + BitVec.ofNat 32 ((blockPixels b.w b.h).countP fun p =>
        written trn (siteOf L s code0 b p) || L.countTransparentSkips) := by
  rw [tileDraw_eq_paint, paint_cnt, tileSites_eq_map, List.countP_map]; rfl

theorem length_blockPixels (w h : Nat) : (blockPixels w h).length = 64 * (w * h) := by
  simp [blockPixels, List.length_flatMap]
  ring

/-! The fill. -/

theorem fillByte_frame (L : Launch) (tgt : Plane) (Y X : Nat) (colour : Byte) (s : State) :
    SameButDrawing s (fillByte L tgt Y X colour s) := by
  cases tgt <;> rfl

/-- The offset of a plane's byte in its word (R65). -/
def planeOffset : Plane → Nat
  | .pixel => 1
  | .palette => 0

theorem fillByte_read (L : Launch) (tgt : Plane) (Y X : Nat) (colour : Byte) (s : State) (a : Nat) :
    readByte L (fillByte L tgt Y X colour s) .frameBuffer a =
      if a = fbAddr L Y X + planeOffset tgt then colour else readByte L s .frameBuffer a := by
  cases tgt
  · rw [fillByte, readByte_congr (mem_countPixel _ _), fbWritePix, readByte_writeByte]
    simp only [true_and]; rfl
  · rw [fillByte, readByte_congr (mem_countPixel _ _), fbWritePal, readByte_writeByte]
    simp only [true_and]; rfl

/-- The pixels of a fill in the order they are filled (R160). -/
def fillSites (b : Block) : List (Nat × Nat) :=
  (List.range (8 * b.h)).flatMap fun r => (List.range (8 * b.w)).map fun q => (b.y + r, b.x + q)

theorem fill_eq_foldl (L : Launch) (tgt : Plane) (b : Block) (colour : Byte) (s : State) :
    fill L tgt b colour s = (fillSites b).foldl (fun s p => fillByte L tgt p.1 p.2 colour s) s := by
  simp only [fill, fillSites, foldl_flatMap_list, List.foldl_map]

theorem fill_frame (L : Launch) (tgt : Plane) (b : Block) (colour : Byte) (s : State) :
    SameButDrawing s (fill L tgt b colour s) := by
  rw [fill_eq_foldl]
  exact foldl_inv (P := SameButDrawing s) (fun _ _ h => h.trans (fillByte_frame ..)) _ _ (.refl s)

/-- Filling a list of pixels leaves a byte that none of them addresses. -/
theorem foldl_fillByte_untouched {L : Launch} {tgt : Plane} {ps : List (Nat × Nat)} {colour : Byte} {s : State}
    {a : Nat} (h : ∀ p ∈ ps, a ≠ fbAddr L p.1 p.2 + planeOffset tgt) :
    readByte L (ps.foldl (fun s p => fillByte L tgt p.1 p.2 colour s) s) .frameBuffer a =
      readByte L s .frameBuffer a := by
  induction ps generalizing s with
  | nil => rfl
  | cons p ps ih =>
    rw [List.foldl_cons, ih fun q hq => h q (by simp [hq]), fillByte_read, if_neg (h p (by simp))]

/-- Filling a list of pixels leaves the colour in every byte that one of them addresses. -/
theorem foldl_fillByte_filled {L : Launch} {tgt : Plane} {ps : List (Nat × Nat)} {colour : Byte} {s : State}
    {a : Nat} (h : ∃ p ∈ ps, a = fbAddr L p.1 p.2 + planeOffset tgt) :
    readByte L (ps.foldl (fun s p => fillByte L tgt p.1 p.2 colour s) s) .frameBuffer a = colour := by
  induction ps generalizing s with
  | nil => simp at h
  | cons p ps ih =>
    rw [List.foldl_cons]
    by_cases h' : ∃ q ∈ ps, a = fbAddr L q.1 q.2 + planeOffset tgt
    · exact ih h'
    · rw [foldl_fillByte_untouched fun q hq e => h' ⟨q, hq, e⟩, fillByte_read, if_pos]
      obtain ⟨q, hq, e⟩ := h
      rcases List.mem_cons.1 hq with rfl | hq
      · exact e
      · exact absurd ⟨q, hq, e⟩ h'

theorem foldl_fillByte_cnt (L : Launch) (tgt : Plane) (ps : List (Nat × Nat)) (colour : Byte) (s : State) :
    (ps.foldl (fun s p => fillByte L tgt p.1 p.2 colour s) s).cnt = s.cnt + BitVec.ofNat 32 ps.length := by
  induction ps generalizing s with
  | nil => simp
  | cons p ps ih =>
    have e : (fillByte L tgt p.1 p.2 colour s).cnt = s.cnt + 1 := by cases tgt <;> rfl
    rw [List.foldl_cons, ih, e, List.length_cons, BitVec.ofNat_add, BitVec.add_assoc]
    congr 1
    exact BitVec.add_comm _ _

theorem mem_fillSites {b : Block} {Y X : Nat} :
    (Y, X) ∈ fillSites b ↔ ∃ r q, r < 8 * b.h ∧ q < 8 * b.w ∧ Y = b.y + r ∧ X = b.x + q := by
  simp only [fillSites, List.mem_flatMap, List.mem_map, List.mem_range, Prod.mk.injEq]
  constructor
  · rintro ⟨r, hr, q, hq, rfl, rfl⟩; exact ⟨r, q, hr, hq, rfl, rfl⟩
  · rintro ⟨r, q, hr, hq, rfl, rfl⟩; exact ⟨r, hr, q, hq, rfl, rfl⟩

theorem length_fillSites (b : Block) : (fillSites b).length = 64 * (b.w * b.h) := by
  simp [fillSites, List.length_flatMap]
  ring

end Sys2Proof.Machine
end

