-- ==== Sys2Proof/Laws/Decode.lean ====
section
/-! SUPPORT. The fields of a command's words and of a window tuple: each field read from the encoder's word is the field
written there, and the masks of the kind table as the flag bits they select (30_encoding.md R91 to R97, R105). -/

namespace Sys2Proof

theorem coordField_encodeAxis (e : BitVec 5) (c : BitVec 9) : coordField (encodeAxis e c) = c := by
  unfold coordField encodeAxis
  ext i hi
  simp [BitVec.getLsbD_eq_getElem, hi, show i < 11 by omega, show i < 16 by omega]

theorem countField_encodeAxis (e : BitVec 5) (c : BitVec 9) : countField (encodeAxis e c) = e := by
  unfold countField encodeAxis
  ext i hi
  simp [BitVec.getLsbD_eq_getElem, hi, show 11 + i < 16 by omega, BitVec.getLsbD_of_ge c (11 + i) (by omega)]

theorem colourField_setWidth (c : Byte) : colourField (c.setWidth 16) = c := by
  unfold colourField
  ext i hi
  simp [BitVec.getLsbD_eq_getElem, hi]
  omega

theorem tupleIndex_encodeTuple (i : BitVec 13) (be : BitVec 2) (d : Word) : tupleIndex (encodeTuple i be d) = i := by
  unfold tupleIndex encodeTuple
  ext j hj
  simp [BitVec.getLsbD_eq_getElem, hj, show 18 + j < 31 by omega, BitVec.getLsbD_of_ge d (18 + j) (by omega),
    BitVec.getLsbD_of_ge be (18 + j - 16) (by omega)]

theorem tupleEnable_encodeTuple (i : BitVec 13) (be : BitVec 2) (d : Word) : tupleEnable (encodeTuple i be d) = be := by
  unfold tupleEnable encodeTuple
  ext j hj
  simp [BitVec.getLsbD_eq_getElem, hj, show 16 + j < 31 by omega, show 16 + j < 18 by omega]

theorem tupleData_encodeTuple (i : BitVec 13) (be : BitVec 2) (d : Word) : tupleData (encodeTuple i be d) = d := by
  unfold tupleData encodeTuple
  ext j hj
  simp [BitVec.getLsbD_eq_getElem, hj, show j < 31 by omega, show j < 18 by omega]

/-- The two flag bits of 0xA000. -/
theorem and_A000 (a : Word) :
    a &&& 0xA000 = (if attrClr a then 0x2000#16 else 0) ||| (if attrTrn a then 0x8000#16 else 0) := by
  have e : (0xA000 : Word) = BitVec.twoPow 16 13 ||| BitVec.twoPow 16 15 := by decide
  rw [e, BitVec.and_or_distrib_left, BitVec.and_twoPow, BitVec.and_twoPow]; rfl

/-- The two flag bits of 0x6000. -/
theorem and_6000 (a : Word) :
    a &&& 0x6000 = (if attrClr a then 0x2000#16 else 0) ||| (if attrTgt a then 0x4000#16 else 0) := by
  have e : (0x6000 : Word) = BitVec.twoPow 16 13 ||| BitVec.twoPow 16 14 := by decide
  rw [e, BitVec.and_or_distrib_left, BitVec.and_twoPow, BitVec.and_twoPow]; rfl

/-- The flag bit 0x2000. -/
theorem and_2000 (a : Word) : a &&& 0x2000 = if attrClr a then 0x2000#16 else 0 := by
  have e : (0x2000 : Word) = BitVec.twoPow 16 13 := by decide
  rw [e, BitVec.and_twoPow]; rfl

end Sys2Proof
end

