-- ==== Sys2Proof/Laws/Step.lean ====
section
/-! SUPPORT. What a step can do: the input it takes, the instruction or the host access it runs, the faults it can end
in. -/

namespace Sys2Proof.Machine

/-- What a step of the host agent can do. -/
theorem hostAccess_cases {L : Launch} {a : HostAccess} {s t : State} (h : hostAccess L a s = .next t) :
    (∃ v, t = answer v s) ∨
    (∃ p hi lo d, t = writeLanes .frameBuffer (p % (L.fbBytes / 2)) hi lo d s) ∨
    (∃ i hi lo d, t = tsWrite L i hi lo d s) := by
  cases a <;> simp only [hostAccess, raiseBusyHazard] at h
  · split at h <;> cases h; exact .inl ⟨_, rfl⟩
  · split at h <;> cases h; exact .inr (.inl ⟨_, _, _, _, rfl⟩)
  · cases h; exact .inl ⟨_, rfl⟩
  · split at h <;> cases h; exact .inr (.inr ⟨_, _, _, _, rfl⟩)

/-- When a step of the host agent faults. -/
theorem hostAccess_fault {L : Launch} {a : HostAccess} {s : State} {f : Fault} (h : hostAccess L a s = .fault f) :
    f = .busyHazard ∧ s.busy = true ∧ L.busyHazardPolicy = .fault := by
  have hz : ∀ x : Host.Outcome State Fault Refusal, (∀ f, x ≠ .fault f) →
      (if hazard L s then raiseBusyHazard else x) = .fault f →
        f = .busyHazard ∧ s.busy = true ∧ L.busyHazardPolicy = .fault := by
    intro x hx h
    split at h
    · next hz => cases h; simp [hazard] at hz; exact ⟨rfl, hz.1, hz.2⟩
    · exact absurd h (hx f)
  cases a <;> simp only [hostAccess] at h
  · exact hz _ (by simp) h
  · exact hz _ (by simp) h
  · cases h
  · exact hz _ (by simp) h

/-- The events spell no command: commands are interpreted from a bank (R90). -/
theorem decodeInput_not_command {w : InputWord} {i : Instr} (h : decodeInput w = .ok i) : isCommand i = false := by
  unfold decodeInput decodePortWrite decodePortRead decodeWinWrite decodeEvent at h
  split at h
  all_goals repeat (first | (cases h <;> rfl) | split at h)

theorem runInput_next {w : InputWord} {s t : State} (h : runInput w s = .next t) :
    ∃ i, decodeInput w = .ok i ∧ exec i s = .next t := by
  unfold runInput at h
  split at h
  · next i hd => exact ⟨i, hd, h⟩
  · cases h

theorem runInput_fault {w : InputWord} {s : State} {f : Fault} (h : runInput w s = .fault f) :
    ∃ i, decodeInput w = .ok i ∧ exec i s = .fault f := by
  unfold runInput at h
  split at h
  · next i hd => exact ⟨i, hd, h⟩
  · cases h

theorem keepLanes_next {l : Lanes} {x : Host.Outcome State Fault Refusal} {t : State} (h : keepLanes l x = .next t) :
    ∃ u, x = .next u ∧ t = { u with reply := u.reply.map (selectLanes l) } := by
  cases x <;> cases h
  exact ⟨_, rfl, rfl⟩

theorem keepLanes_fault {l : Lanes} {x : Host.Outcome State Fault Refusal} {f : Fault} (h : keepLanes l x = .fault f) :
    x = .fault f := by
  cases x <;> cases h
  rfl

/-- What delivering one input can do: run an instruction that is no command, of whose answer some lanes may be kept, take
a step of the host agent, or, for an access that does not reach this block, nothing. -/
theorem deliver_next {e : Input} {s t : State} (h : deliver e s = .next t) :
    (∃ i u, isCommand i = false ∧ exec i s = .next u ∧ t = { u with reply := t.reply }) ∨
      (∃ a, hostAccess Config.launch a s = .next t) ∨ t = s := by
  cases e with
  | op w =>
    obtain ⟨i, hd, hi⟩ := runInput_next h
    exact .inl ⟨i, t, decodeInput_not_command hd, hi, rfl⟩
  | mem a => exact .inr (.inl ⟨a, h⟩)
  | bus a =>
    simp only [deliver] at h
    split at h
    · cases h; exact .inr (.inr rfl)
    · next r _ =>
      cases r with
      | op w l =>
        obtain ⟨u, hu, rfl⟩ := keepLanes_next h
        obtain ⟨i, hd, hi⟩ := runInput_next hu
        exact .inl ⟨i, u, decodeInput_not_command hd, hi, rfl⟩
      | mem m => exact .inr (.inl ⟨m, h⟩)

theorem deliver_fault {e : Input} {s : State} {f : Fault} (h : deliver e s = .fault f) :
    (∃ i, exec i s = .fault f) ∨ ∃ a, hostAccess Config.launch a s = .fault f := by
  cases e with
  | op w => obtain ⟨i, -, hi⟩ := runInput_fault h; exact .inl ⟨i, hi⟩
  | mem a => exact .inr ⟨a, h⟩
  | bus a =>
    simp only [deliver] at h
    split at h
    · cases h
    · next r _ =>
      cases r with
      | op w l => obtain ⟨i, -, hi⟩ := runInput_fault (keepLanes_fault h); exact .inl ⟨i, hi⟩
      | mem m => exact .inr ⟨m, h⟩

/-- What a step that goes on did. -/
theorem step_next {s t : State} (h : step s = .next t) :
    (s.inputs = [] ∧ t = beginStep s) ∨
    ∃ e rest, s.inputs = e :: rest ∧ pointer1InRange s = true ∧ deliver e (takeInput rest s) = .next t := by
  unfold step deliverNext at h
  split at h
  · next he => cases h; exact .inl ⟨he, rfl⟩
  · next e rest he =>
    split at h
    · next hp => exact .inr ⟨e, rest, he, hp, h⟩
    · cases h

/-- Where a step that faults faulted. -/
theorem step_fault {s : State} {f : Fault} (h : step s = .fault f) :
    ∃ e rest, s.inputs = e :: rest ∧
      ((pointer1InRange s = false ∧ f = .defect (.channel1PointerOutOfRange e)) ∨
       (pointer1InRange s = true ∧ deliver e (takeInput rest s) = .fault f)) := by
  unfold step deliverNext at h
  split at h
  · cases h
  · next e rest he =>
    split at h
    · next hp => exact ⟨e, rest, he, .inr ⟨hp, h⟩⟩
    · next hp => cases h; exact ⟨e, rest, he, .inl ⟨by simpa using hp, rfl⟩⟩

theorem pointer1InRange_iff {s : State} : pointer1InRange s = true ↔ s.ch1.romPointer.toNat < 0x2000 := by
  simp [pointer1InRange, BitVec.lt_def]

/-- With the channel-1 pointer in range, a step delivers the next input. -/
theorem step_deliver {s : State} {e : Input} {rest : List Input} (h : s.inputs = e :: rest)
    (hp : s.ch1.romPointer.toNat < 0x2000) : step s = deliver e (takeInput rest s) := by
  unfold step deliverNext
  rw [h]
  simp [pointer1InRange_iff.2 hp]

/-- The one instruction that faults (R127). -/
theorem exec_fault {i : Instr} {s : State} {f : Fault} (h : exec i s = .fault f) :
    i = .timerFire ∧ s.pending = none ∧ f = .defect .timerFireWithNothingPending := by
  cases i
  case winWrite => simp only [exec, execWinWrite] at h; split at h <;> cases h
  case timerFire =>
    simp only [exec, execTimerFire, raiseDefect] at h
    split at h
    · next hp => cases h; exact ⟨rfl, hp, rfl⟩
    · cases h
  all_goals cases h

/-- Instructions in a row are the first ones, then the others. -/
theorem execAll_append {is js : List Instr} {s t : State} (h : execAll is s = .next t) :
    execAll (is ++ js) s = execAll js t := by
  induction is generalizing s with
  | nil => cases h; rfl
  | cons i is ih =>
    simp only [List.cons_append, execAll] at h ⊢
    rcases hx : exec i s with u | f | r <;> rw [hx] at h
    · exact ih h
    · cases h
    · cases h

end Sys2Proof.Machine
end

