-- ==== Sys2Proof/Laws/HostBus.lean ====
section
/-! SUPPORT. Where a host address leads under an injective `ADDR_MAP`. -/

namespace Sys2Proof.Machine

/-- An address inside an item leads to that item, and to no other. -/
theorem locate_inside {L : Launch} (hL : L.Allowed) {i : MapItem} {off : Nat} (h : off < L.extent i) :
    locate L (L.addrMap i + off) = some (i, off) := by
  unfold locate
  cases hf : MapItem.all.find? fun j => decide (L.addrMap j ≤ L.addrMap i + off ∧ L.addrMap i + off < L.addrMap j + L.extent j) with
  | none =>
    have := List.find?_eq_none.1 hf i i.mem_all
    simp at this
    omega
  | some j =>
    have hj := List.find?_some hf
    simp only [decide_eq_true_eq] at hj
    obtain ⟨e, -⟩ := hL.addrMap i j off (L.addrMap i + off - L.addrMap j) h (by omega) (by omega)
    subst e
    simp

/-- An address in no item leads nowhere. -/
theorem locate_outside {L : Launch} {addr : Nat} (h : ∀ i off, off < L.extent i → addr ≠ L.addrMap i + off) :
    locate L addr = none := by
  unfold locate
  rw [Option.map_eq_none_iff, List.find?_eq_none]
  intro i _ hi
  simp only [decide_eq_true_eq] at hi
  exact h i (addr - L.addrMap i) (by omega) (by omega)

theorem routeAccess_read {L : Launch} (hL : L.Allowed) {i : MapItem} {off : Nat} (h : off < L.extent i) (n : Width) :
    routeAccess L (.read (L.addrMap i + off) n) = some (routeRead n (i, off)) := by
  simp [routeAccess, locate_inside hL h]

theorem routeAccess_write {L : Launch} (hL : L.Allowed) {i : MapItem} {off : Nat} (h : off < L.extent i) (n : Width)
    (v : Word) : routeAccess L (.write (L.addrMap i + off) n v) = some (routeWrite n v (i, off)) := by
  simp [routeAccess, locate_inside hL h]

/-- An access that does not reach the block leads nowhere, whatever it is. -/
theorem routeAccess_outside {L : Launch} {addr : Nat} (h : ∀ i off, off < L.extent i → addr ≠ L.addrMap i + off)
    (n : Width) (v : Word) : routeAccess L (.read addr n) = none ∧ routeAccess L (.write addr n v) = none := by
  simp [routeAccess, locate_outside h]

/-- Keeping both lanes changes no answer. -/
@[simp] theorem keepLanes_both (x : Host.Outcome State Fault Refusal) : keepLanes .both x = x := by
  rcases x with t | _ | _
  · rcases t with ⟨⟩
    rename_i r _
    cases r <;> rfl
  · rfl
  · rfl

/-- A read inside an item is the operation it names there. -/
theorem deliver_read {i : MapItem} {off : Nat} (h : off < Config.launch.extent i) (n : Width) (s : State) :
    deliver (.bus (.read (Config.launch.addrMap i + off) n)) s = runRouted (routeRead n (i, off)) s := by
  simp only [deliver, routeAccess_read Config.launch_allowed h]

/-- A write inside an item is the operation it names there. -/
theorem deliver_write {i : MapItem} {off : Nat} (h : off < Config.launch.extent i) (n : Width) (v : Word) (s : State) :
    deliver (.bus (.write (Config.launch.addrMap i + off) n v)) s = runRouted (routeWrite n v (i, off)) s := by
  simp only [deliver, routeAccess_write Config.launch_allowed h]

/-- An access that does not reach the block changes nothing of it. -/
theorem deliver_outside {addr : Nat} (h : ∀ i off, off < Config.launch.extent i → addr ≠ Config.launch.addrMap i + off)
    (n : Width) (v : Word) (s : State) :
    deliver (.bus (.read addr n)) s = .next s ∧ deliver (.bus (.write addr n v)) s = .next s := by
  obtain ⟨hr, hw⟩ := routeAccess_outside h n v
  exact ⟨by simp only [deliver, hr], by simp only [deliver, hw]⟩

end Sys2Proof.Machine
end

