-- ==== Sys2Proof/Laws/PerInstr.lean ====
section
/-! SUPPORT. Statements made for each instruction: the family EncodedForm, which of the two encoded forms an instruction
has (30_encoding.md R90, R103): the five DMA commands are four words of a slot, every other operation is an input event. -/

namespace Sys2Proof.Laws.EncodedForm

open Sys2Proof.Machine

/-- A command encodes as four words, any other instruction as an input event. -/
def Statement (i : Instr) : Prop :=
  (isCommand i = true → ∃ attr x y c, encode i = .command attr x y c) ∧
    (isCommand i = false → ∃ w, encode i = .input w)

theorem of_command {i : Instr} {attr x y c : Word} (hc : isCommand i = true) (h : encode i = .command attr x y c) :
    Statement i := ⟨fun _ => ⟨_, _, _, _, h⟩, fun e => absurd (hc.symm.trans e) (by decide)⟩

theorem of_input {i : Instr} {w : InputWord} (hc : isCommand i = false) (h : encode i = .input w) : Statement i :=
  ⟨fun e => absurd (hc.symm.trans e) (by decide), fun _ => ⟨_, h⟩⟩

theorem nop : Statement .nop := of_command rfl rfl

theorem tileO (code : BitVec 13) (x : BitVec 9) (wenc : BitVec 5) (y : BitVec 9) (henc : BitVec 5) (col : Byte) :
    Statement (.tileO code x wenc y henc col) := of_command rfl rfl

theorem tileT (code : BitVec 13) (x : BitVec 9) (wenc : BitVec 5) (y : BitVec 9) (henc : BitVec 5) (col : Byte) :
    Statement (.tileT code x wenc y henc col) := of_command rfl rfl

theorem fillPix (x : BitVec 9) (wenc : BitVec 5) (y : BitVec 9) (henc : BitVec 5) (col : Byte) :
    Statement (.fillPix x wenc y henc col) := of_command rfl rfl

theorem fillPal (x : BitVec 9) (wenc : BitVec 5) (y : BitVec 9) (henc : BitVec 5) (col : Byte) :
    Statement (.fillPal x wenc y henc col) := of_command rfl rfl

theorem dmaStart : Statement .dmaStart := of_input rfl rfl

theorem dmaStop : Statement .dmaStop := of_input rfl rfl

theorem dmaStatus : Statement .dmaStatus := of_input rfl rfl

theorem adpcm0Start : Statement .adpcm0Start := of_input rfl rfl

theorem adpcm0Stop : Statement .adpcm0Stop := of_input rfl rfl

theorem adpcm0AddrLo (d : Byte) : Statement (.adpcm0AddrLo d) := of_input rfl rfl

theorem adpcm0AddrHi (d : Byte) : Statement (.adpcm0AddrHi d) := of_input rfl rfl

theorem adpcm1Start : Statement .adpcm1Start := of_input rfl rfl

theorem adpcm1Stop : Statement .adpcm1Stop := of_input rfl rfl

theorem winWrite (i : BitVec 13) (be : BitVec 2) (d : Word) : Statement (.winWrite i be d) := of_input rfl rfl

theorem winRead (i : BitVec 13) : Statement (.winRead i) := of_input rfl rfl

theorem timerFire : Statement .timerFire := of_input rfl rfl

theorem gen0Vck : Statement .gen0Vck := of_input rfl rfl

theorem ctcTo (l : Bool) : Statement (.ctcTo l) := of_input rfl rfl

theorem reset : Statement .reset := of_input rfl rfl

end Sys2Proof.Laws.EncodedForm
end

