-- ==== Sys2Proof/Laws/Replay.lean ====
section
/-! SUPPORT. What a slot, a replay and a trigger can do (41_dma_commands.md R150 to R152, 40_dma_control.md R120): they
draw and count, and read the bank and the tile source as they stood before. -/

namespace Sys2Proof.Machine

theorem runWords_frame (L : Launch) (a x y c : Word) (s : State) : SameButDrawing s (runWords L a x y c s) := by
  unfold runWords
  split
  · exact .refl s
  · exact tileDraw_frame ..
  · exact tileDraw_frame ..
  · exact fill_frame ..
  · exact fill_frame ..

theorem replaySlot_frame (L : Launch) (b : BankId) (k : Nat) (s : State) : SameButDrawing s (replaySlot L b k s) :=
  runWords_frame ..

/-- The state differs from `s` in the frame buffer and the count alone: an invariant of a scan. -/
theorem foldl_replaySlot_frame (L : Launch) (b : BankId) (ks : List Nat) (s : State) :
    SameButDrawing s (ks.foldl (fun s k => replaySlot L b k s) s) :=
  foldl_inv (P := SameButDrawing s) (fun _ _ h => h.trans (replaySlot_frame ..)) ks s (.refl s)

theorem replay_frame (L : Launch) (b : BankId) (s : State) : SameButDrawing s (replay L b s) :=
  SameButDrawing.trans (t := { s with cnt := 0 }) rfl (foldl_replaySlot_frame ..)

theorem SameButDrawing.bankWord {s t : State} (h : SameButDrawing s t) (L : Launch) (b : BankId) (i : Nat) :
    Sys2Proof.Machine.bankWord L t b i = Sys2Proof.Machine.bankWord L s b i :=
  bankWord_congr (h.mem (by simp)) i

/-- What the words of a slot add to the count. -/
def wordsCount (L : Launch) (s : State) (a x y : Word) : Nat :=
  let b := blockOf (coordField x) (countField x) (coordField y) (countField y)
  match classify a with
  | .nop => 0
  | .tileO => 64 * (b.w * b.h)
  | .tileT => (blockPixels b.w b.h).countP fun p =>
      written true (siteOf L s (attrCode a).toNat b p) || L.countTransparentSkips
  | .fillPix => 64 * (b.w * b.h)
  | .fillPal => 64 * (b.w * b.h)

theorem fill_cnt (L : Launch) (tgt : Plane) (b : Block) (colour : Byte) (s : State) :
    (fill L tgt b colour s).cnt = s.cnt + BitVec.ofNat 32 (64 * (b.w * b.h)) := by
  rw [fill_eq_foldl, foldl_fillByte_cnt, length_fillSites]

/-- An opaque tile draw counts every pixel. -/
theorem tileDraw_opaque_cnt (L : Launch) (code0 : Nat) (b : Block) (colour : Byte) (s : State) :
    (tileDraw L false code0 b colour s).cnt = s.cnt + BitVec.ofNat 32 (64 * (b.w * b.h)) := by
  have h : ∀ p : Site, written false p = true := fun _ => rfl
  rw [tileDraw_cnt]
  simp only [h, Bool.true_or, List.countP_true, length_blockPixels]

theorem runWords_cnt (L : Launch) (a x y c : Word) (s : State) :
    (runWords L a x y c s).cnt = s.cnt + BitVec.ofNat 32 (wordsCount L s a x y) := by
  unfold runWords wordsCount
  cases classify a with
  | nop => simp
  | tileO => exact tileDraw_opaque_cnt ..
  | tileT => exact tileDraw_cnt ..
  | fillPix => exact fill_cnt ..
  | fillPal => exact fill_cnt ..

/-- A block has at most 32 by 32 tiles. -/
theorem blockOf_tiles_le (x : BitVec 9) (wenc : BitVec 5) (y : BitVec 9) (henc : BitVec 5) :
    (blockOf x wenc y henc).w * (blockOf x wenc y henc).h ≤ 32 * 32 := by
  have h1 := wenc.isLt
  have h2 := henc.isLt
  exact Nat.mul_le_mul (show wenc.toNat + 1 ≤ 32 by omega) (show henc.toNat + 1 ≤ 32 by omega)

/-- One slot counts at most 65,536 pixels. -/
theorem wordsCount_le (L : Launch) (s : State) (a x y : Word) : wordsCount L s a x y ≤ 65536 := by
  have h := blockOf_tiles_le (coordField x) (countField x) (coordField y) (countField y)
  unfold wordsCount
  cases classify a <;> dsimp only
  · omega
  · omega
  · refine List.countP_le_length.trans ?_
    rw [length_blockPixels]; omega
  · omega
  · omega

/-- What slot `k` of a bank adds to the count. -/
def slotCount (L : Launch) (s : State) (b : BankId) (k : Nat) : Nat :=
  wordsCount L s (bankWord L s b (4 * k)) (bankWord L s b (4 * k + 1)) (bankWord L s b (4 * k + 2))

theorem slotCount_le (L : Launch) (s : State) (b : BankId) (k : Nat) : slotCount L s b k ≤ 65536 := wordsCount_le ..

/-- A slot's count does not depend on what has been drawn or counted. -/
theorem slotCount_congr {L : Launch} {s t : State} (h : SameButDrawing s t) (b : BankId) (k : Nat) :
    slotCount L t b k = slotCount L s b k := by
  have hp : ∀ code hh j k r q, tilePixel L t code hh j k r q = tilePixel L s code hh j k r q := by
    intro code hh j k r q
    unfold tilePixel
    rw [tsRead_congr h.ts, tsRead_congr h.ts]
  simp only [slotCount, wordsCount, h.bankWord, siteOf, hp]

theorem replaySlot_cnt (L : Launch) (b : BankId) (k : Nat) (s : State) :
    (replaySlot L b k s).cnt = s.cnt + BitVec.ofNat 32 (slotCount L s b k) := runWords_cnt ..

/-- The count of a scan is the sum of its slots' counts. -/
theorem foldl_replaySlot_cnt (L : Launch) (b : BankId) (ks : List Nat) (s : State) :
    (ks.foldl (fun s k => replaySlot L b k s) s).cnt =
      s.cnt + BitVec.ofNat 32 ((ks.map (slotCount L s b)).sum) := by
  induction ks generalizing s with
  | nil => simp
  | cons k ks ih =>
    have e : ks.map (slotCount L (replaySlot L b k s) b) = ks.map (slotCount L s b) :=
      List.map_congr_left fun k' _ => slotCount_congr (replaySlot_frame ..) b k'
    rw [List.foldl_cons, ih, e, replaySlot_cnt, List.map_cons, List.sum_cons, BitVec.ofNat_add, BitVec.add_assoc]

theorem sum_slotCount_le (L : Launch) (b : BankId) (s : State) (ks : List Nat) :
    (ks.map (slotCount L s b)).sum ≤ ks.length * 65536 := by
  induction ks with
  | nil => simp
  | cons k ks ih =>
    have := slotCount_le L s b k
    simp only [List.map_cons, List.sum_cons, List.length_cons]
    omega

/-- R151, R123 (c): the replay's count is the sum of its slots' counts, with no overflow. -/
theorem replay_cnt (L : Launch) (b : BankId) (s : State) :
    (replay L b s).cnt.toNat = ((List.range slots).map (slotCount L s b)).sum ∧ (replay L b s).cnt.toNat ≤ 2 ^ 27 := by
  have h := sum_slotCount_le L b s (List.range slots)
  have e : (List.range slots).map (slotCount L { s with cnt := 0 } b) = (List.range slots).map (slotCount L s b) :=
    List.map_congr_left fun k _ => slotCount_congr (show SameButDrawing s { s with cnt := 0 } from rfl) b k
  rw [List.length_range, show slots * 65536 = 2 ^ 27 from rfl] at h
  have hc : (replay L b s).cnt.toNat = ((List.range slots).map (slotCount L s b)).sum := by
    rw [replay, foldl_replaySlot_cnt, e]
    show (0#32 + BitVec.ofNat 32 _ : BitVec 32).toNat = _
    rw [BitVec.zero_add, BitVec.toNat_ofNat, Nat.mod_eq_of_lt (by omega)]
  exact ⟨hc, by omega⟩

/-! The trigger. -/

theorem cancelPending_eq (s : State) :
    cancelPending s =
      { s with pending := none, outputs := s.outputs ++ (if s.pending.isSome then [.cancel] else []) } := by
  unfold cancelPending
  split
  · next h => ext <;> simp [h]
  · next h => simp [h, emit]

theorem settleBusy_eq (L : Launch) (n : BitVec 32) (s : State) :
    settleBusy L n s =
      if n = 0 then
        { s with busy := false, pending := none, outputs := s.outputs ++ (if s.pending.isSome then [.cancel] else []) }
      else
        { s with
          busy := true, pending := some (completionDelay L n)
          outputs := s.outputs ++ (if s.pending.isSome then [.cancel] else []) ++ [.sched (completionDelay L n)] } := by
  simp only [settleBusy, cancelPending_eq]
  split <;> rfl

/-- A trigger in terms of its replay. -/
theorem trigger_eq (L : Launch) (s : State) :
    trigger L s =
      let r := replay L s.activeBank { s with activeBank := otherBank s.activeBank }
      settleBusy L r.cnt
        { s with activeBank := otherBank s.activeBank, fb := r.fb, pixelsProcessed := r.cnt, cnt := 0 } := by
  have h := replay_frame L s.activeBank { s with activeBank := otherBank s.activeBank }
  unfold trigger
  generalize replay L s.activeBank { s with activeBank := otherBank s.activeBank } = r at h
  dsimp only
  rw [h]

theorem slots_eq : slots = 0x800 := rfl

/-- A trigger leaves in the frame buffer what its replay leaves there. -/
theorem trigger_fb (L : Launch) (s : State) :
    (trigger L s).fb = (replay L s.activeBank { s with activeBank := otherBank s.activeBank }).fb := by
  rw [trigger_eq]
  generalize replay L s.activeBank { s with activeBank := otherBank s.activeBank } = r
  dsimp only
  rw [settleBusy_eq]
  split <;> rfl

/-- A trigger records its replay's count. -/
theorem trigger_pixelsProcessed (L : Launch) (s : State) :
    (trigger L s).pixelsProcessed = (replay L s.activeBank { s with activeBank := otherBank s.activeBank }).cnt := by
  rw [trigger_eq]
  generalize replay L s.activeBank { s with activeBank := otherBank s.activeBank } = r
  dsimp only
  rw [settleBusy_eq]
  split <;> rfl

/-! What a scan reads: its own bank, the tile source and the bytes of the frame buffer, nothing else of the state. -/

/-- The two states give a scan of bank `b` the same to read and to draw on. -/
structure SameForScan (b : BankId) (s t : State) : Prop where
  bank : s.mem (.bank b) = t.mem (.bank b)
  ts : s.ts = t.ts
  fb : s.fb = t.fb
  cnt : s.cnt = t.cnt

/-- What a scan leaves, put over another state. -/
def drawnOver (t r : State) : State := { t with fb := r.fb, cnt := r.cnt }

theorem tileSites_congr {L : Launch} {s t : State} (h : s.ts = t.ts) (code0 : Nat) (b : Block) :
    tileSites L s code0 b = tileSites L t code0 b := by
  simp only [tileSites, rowSites_congr h]

theorem paint_over {L : Launch} {trn : Bool} {base : Byte} {ps : List Site} {s t : State} (hf : s.fb = t.fb)
    (hc : s.cnt = t.cnt) : paint L trn base ps t = drawnOver t (paint L trn base ps s) := by
  rw [paint_frame L trn base ps t, drawnOver, paint_congr hf, paint_cnt, paint_cnt, hc]

theorem fillByte_over {L : Launch} {tgt : Plane} {Y X : Nat} {colour : Byte} {s t : State} (hf : s.fb = t.fb)
    (hc : s.cnt = t.cnt) :
    (fillByte L tgt Y X colour s).fb = (fillByte L tgt Y X colour t).fb ∧
      (fillByte L tgt Y X colour s).cnt = (fillByte L tgt Y X colour t).cnt := by
  cases tgt
  all_goals
    constructor
    · show s.fb.store _ _ = t.fb.store _ _
      rw [hf]
    · show s.cnt + 1 = t.cnt + 1
      rw [hc]

theorem fill_over {L : Launch} {tgt : Plane} {b : Block} {colour : Byte} {s t : State} (hf : s.fb = t.fb)
    (hc : s.cnt = t.cnt) : fill L tgt b colour t = drawnOver t (fill L tgt b colour s) := by
  have key : ∀ (ps : List (Nat × Nat)) (s t : State), s.fb = t.fb → s.cnt = t.cnt →
      (ps.foldl (fun s p => fillByte L tgt p.1 p.2 colour s) s).fb =
        (ps.foldl (fun s p => fillByte L tgt p.1 p.2 colour s) t).fb := by
    intro ps
    induction ps with
    | nil => intro s t hf _; exact hf
    | cons p ps ih => intro s t hf hc; exact ih _ _ (fillByte_over hf hc).1 (fillByte_over hf hc).2
  rw [fill_frame L tgt b colour t, drawnOver, fill_cnt, fill_cnt, hc, fill_eq_foldl, fill_eq_foldl,
    key (fillSites b) s t hf hc]

theorem runWords_over {L : Launch} {a x y c : Word} {s t : State} (ht : s.ts = t.ts) (hf : s.fb = t.fb)
    (hc : s.cnt = t.cnt) : runWords L a x y c t = drawnOver t (runWords L a x y c s) := by
  unfold runWords
  cases classify a with
  | nop => simp only [drawnOver, hf, hc]
  | tileO => simp only [tileDraw_eq_paint, tileSites_congr ht]; exact paint_over hf hc
  | tileT => simp only [tileDraw_eq_paint, tileSites_congr ht]; exact paint_over hf hc
  | fillPix => exact fill_over hf hc
  | fillPal => exact fill_over hf hc

theorem replaySlot_over {L : Launch} {b : BankId} {k : Nat} {s t : State} (h : SameForScan b s t) :
    replaySlot L b k t = drawnOver t (replaySlot L b k s) := by
  unfold replaySlot
  simp only [← bankWord_congr h.bank]
  exact runWords_over h.ts h.fb h.cnt

/-- A replay reads its own bank and the tile source, and nothing else but the frame buffer it draws on. -/
theorem replay_over {L : Launch} {b : BankId} {s t : State} (hb : s.mem (.bank b) = t.mem (.bank b)) (ht : s.ts = t.ts)
    (hf : s.fb = t.fb) : replay L b t = drawnOver t (replay L b s) := by
  have key : ∀ (ks : List Nat) (s t : State), SameForScan b s t →
      ks.foldl (fun s k => replaySlot L b k s) t = drawnOver t (ks.foldl (fun s k => replaySlot L b k s) s) := by
    intro ks
    induction ks with
    | nil => intro s t h; simp only [List.foldl_nil, drawnOver, h.fb, h.cnt]
    | cons k ks ih =>
      intro s t h
      have hs := replaySlot_frame L b k s
      have h' : SameForScan b (replaySlot L b k s) (replaySlot L b k t) := by
        rw [replaySlot_over h]
        refine ⟨?_, ?_, rfl, rfl⟩
        · rw [hs.mem (by simp), h.bank]; rcases b <;> rfl
        · rw [hs.ts, h.ts]; rfl
      rw [List.foldl_cons, List.foldl_cons, ih _ _ h', replaySlot_over h]
      rfl
  have hb' : State.mem { s with cnt := 0 } (.bank b) = State.mem { t with cnt := 0 } (.bank b) := by
    rcases b <;> exact hb
  unfold replay
  rw [key (List.range slots) { s with cnt := 0 } { t with cnt := 0 } ⟨hb', ht, hf, rfl⟩]
  rfl

end Sys2Proof.Machine
end

