-- ==== Sys2Proof/Laws/Within.lean ====
section
/-! SUPPORT. Every write keeps every memory canonical and within its space. -/

namespace Sys2Proof.Machine

/-- Every memory is canonical and within its space. -/
def MemoriesWithin (L : Launch) (s : State) : Prop := ∀ sp, (s.mem sp).Within (spaceBytes L sp)

theorem MemoriesWithin.writeByte {L : Launch} {s : State} (h : MemoriesWithin L s) {sp : Space} {a : Nat} (v : Byte)
    (ha : a < spaceBytes L sp) : MemoriesWithin L (writeByte sp a v s) := by
  intro sp'
  rw [mem_writeByte]
  split
  · next e =>
    subst e
    exact ⟨Memory.store_wf _ _ (h _).canonical, Memory.store_bounded (h _).bounded ha⟩
  · exact h sp'

theorem MemoriesWithin.writeLanes {L : Launch} {s : State} (h : MemoriesWithin L s) {sp : Space} {i : Nat} (hi lo : Bool)
    (d : Word) (ha : 2 * i + 1 < spaceBytes L sp) : MemoriesWithin L (writeLanes sp i hi lo d s) := by
  have h1 : MemoriesWithin L (if hi then Machine.writeByte sp (2 * i) (hiByte d) s else s) := by
    split
    · exact h.writeByte _ (by omega)
    · exact h
  unfold Machine.writeLanes
  dsimp only
  split
  · exact h1.writeByte _ ha
  · exact h1

theorem MemoriesWithin.tsWrite {L : Launch} (hL : L.Allowed) {s : State} (h : MemoriesWithin L s) (i : Nat) (hi lo : Bool)
    (d : Word) : MemoriesWithin L (tsWrite L i hi lo d s) := by
  rcases tsWrite_cases L i hi lo d s with ⟨-, e⟩ | ⟨-, e⟩ <;> rw [e]
  · have := Nat.mod_lt i hL.tileSrcWords_pos
    refine h.writeLanes _ _ _ ?_
    simp only [spaceBytes, tsWordIndex]
    omega
  · exact h

theorem MemoriesWithin.congr {L : Launch} {s t : State} (h : MemoriesWithin L s) (e : ∀ sp, t.mem sp = s.mem sp) :
    MemoriesWithin L t := fun sp => by rw [e]; exact h sp

theorem MemoriesWithin.plotPixel {L : Launch} (hL : L.Allowed) {s : State} (h : MemoriesWithin L s) (trn : Bool) (base : Byte)
    (Y X : Nat) (pix : Nibble) : MemoriesWithin L (plotPixel L trn base Y X pix s) := by
  unfold Machine.plotPixel
  split
  · exact (h.writeByte (sp := .frameBuffer) _ (fbAddr_lt hL Y X)).congr (mem_countPixel _)
  · split
    · exact h.congr (mem_countPixel _)
    · exact h

theorem MemoriesWithin.fillByte {L : Launch} (hL : L.Allowed) {s : State} (h : MemoriesWithin L s) (tgt : Plane)
    (Y X : Nat) (colour : Byte) : MemoriesWithin L (fillByte L tgt Y X colour s) := by
  have := fbAddr_lt hL Y X
  cases tgt
  · exact (h.writeByte (sp := .frameBuffer) _ this).congr (mem_countPixel _)
  · exact (h.writeByte (sp := .frameBuffer) _ (show fbAddr L Y X < L.fbBytes by omega)).congr (mem_countPixel _)

theorem MemoriesWithin.tileDraw {L : Launch} (hL : L.Allowed) {s : State} (h : MemoriesWithin L s) (trn : Bool) (code0 : Nat)
    (b : Block) (colour : Byte) : MemoriesWithin L (tileDraw L trn code0 b colour s) := by
  rw [tileDraw_eq_paint]
  exact foldl_inv (P := MemoriesWithin L) (fun _ _ h => h.plotPixel hL _ _ _ _ _) _ _ h

theorem MemoriesWithin.fill {L : Launch} (hL : L.Allowed) {s : State} (h : MemoriesWithin L s) (tgt : Plane)
    (b : Block) (colour : Byte) : MemoriesWithin L (fill L tgt b colour s) := by
  rw [fill_eq_foldl]
  exact foldl_inv (P := MemoriesWithin L) (fun _ _ h => h.fillByte hL _ _ _ _) _ _ h

theorem MemoriesWithin.replay {L : Launch} (hL : L.Allowed) {s : State} (h : MemoriesWithin L s) (b : BankId) :
    MemoriesWithin L (replay L b s) := by
  refine foldl_inv (P := MemoriesWithin L) (fun t k h => ?_) (List.range slots) { s with cnt := 0 } (h.congr fun sp => by rcases sp with (_ | _) | _ | _ <;> rfl)
  unfold replaySlot runWords
  cases classify _ with
  | nop => exact h
  | tileO => exact h.tileDraw hL _ _ _ _
  | tileT => exact h.tileDraw hL _ _ _ _
  | fillPix => exact h.fill hL _ _ _
  | fillPal => exact h.fill hL _ _ _

theorem mem_settleBusy (L : Launch) (n : BitVec 32) (s : State) (sp : Space) : (settleBusy L n s).mem sp = s.mem sp := by
  rw [settleBusy_eq]; split <;> rcases sp with (_ | _) | _ | _ <;> rfl

theorem MemoriesWithin.trigger {L : Launch} (hL : L.Allowed) {s : State} (h : MemoriesWithin L s) :
    MemoriesWithin L (trigger L s) := by
  have hr : MemoriesWithin L (Machine.replay L s.activeBank { s with activeBank := otherBank s.activeBank }) :=
    MemoriesWithin.replay hL (h.congr fun sp => by rcases sp with (_ | _) | _ | _ <;> rfl) s.activeBank
  unfold Machine.trigger
  generalize Machine.replay L s.activeBank { s with activeBank := otherBank s.activeBank } = r at hr
  refine hr.congr fun sp => ?_
  rw [mem_settleBusy]
  rcases sp with (_ | _) | _ | _ <;> rfl

end Sys2Proof.Machine
end

