-- ==== Sys2Proof/Tests/Slice0.lean ====
section
/-! SUPPORT. Tests: expected values from the spec's encodings and test vectors (95_test_vectors.md V<n>), and for each
obligation with hypotheses a witness that meets them. -/

namespace Sys2Proof.Tests

open Sys2Proof.Machine

/-! ## Helpers -/

/-- The reference configuration REF of 95_test_vectors.md, with the ROM bytes of its section 5; what nothing has written
reads as 0 in the banks and the tile source and as 0xEE in the frame buffer. -/
def ref : Launch where
  fbBytes := 0x80000
  tileSrcWords := 0x20000
  planeMap := ⟨.w0hi, .w0lo, .w1hi, .w1lo⟩
  pixelOrder := .lsbFirst
  countTransparentSkips := false
  dmaClkPeriod := 3
  romBytes := fun
    | .ch0 => 0x80000
    | .ch1 => 0x2000
  busyHazardPolicy := .atomic
  addrMap := fun
    | .window => 0
    | .port sel => 0x4000 + 2 * sel.val
    | .frameBuffer => 0x100000
    | .tileSource => 0x200000
  rom := fun
    | .ch0 => fun a => if a = 0x12300 then 0x9C else if a = 0x7FFFF then 0x3B else 0
    | .ch1 => fun a => if a = 0 then 0x31 else if a = 0x1FFF then 0x7E else 0
  tileRom := fun _ => none
  powerOn := fun
    | .frameBuffer => fun _ => 0xEE
    | .bank _ => fun _ => 0
    | .tileSource => fun _ => 0

theorem ref_allowed : ref.Allowed where
  fbBytes := ⟨19, by decide, rfl⟩
  tileSrcWords := ⟨17, by decide, rfl⟩
  planeMap := by decide
  dmaClkPeriod := by decide
  rom0Bytes := ⟨19, by decide, rfl⟩
  rom1Bytes := ⟨13, by decide, by decide, rfl⟩
  addrMap := MapItem.Separate.injective (by decide)

/-- The state of an outcome that goes on. -/
def stateOf : Host.Outcome State Fault Refusal → Option State
  | .next t => some t
  | .fault _ => none
  | .refused _ => none

/-- A register or memory of the state an outcome goes on in. -/
def fieldOf {α : Type} (f : State → α) (o : Host.Outcome State Fault Refusal) : Option α := (stateOf o).map f

def faultOf : Host.Outcome State Fault Refusal → Option Fault
  | .next _ => none
  | .fault f => some f
  | .refused _ => none

def refusalOf? : Host.Outcome State Fault Refusal → Option Refusal
  | .next _ => none
  | .fault _ => none
  | .refused r => some r

/-- Right after reset, with these inputs to come. -/
def awaiting (is : List Input) : State := { State.reset with inputs := is }

/-- Tile 1 of the vectors: `TS[16]` = 0x8001. -/
def withTile1 : State := { State.reset with ts := [(32, 0x80), (33, 0x01)] }

/-- Channel 0 playing at a pointer and a phase. -/
def playing0 (p : BitVec 21) (phase : Bool) : State := { State.reset with ch0 := ⟨p, phase, false⟩ }

/-- Channel 1 playing at a pointer and a phase, about to see a falling edge. -/
def playing1 (p : BitVec 21) (phase toggle : Bool) : State :=
  { State.reset with ch1 := ⟨p, phase, false⟩, clockToggle := toggle, prevClockToggle := true }

/-! ## WellFormed: the one check refuses the ill-formed term -/

theorem test_wellFormed_refuses_no_byte_enable : (Instr.winWrite 4 0b00 0x1234).wellFormed = false := by decide
theorem test_wellFormed_accepts_each_byte_enable :
    ∀ be ∈ [0b01, 0b10, 0b11], (Instr.winWrite 4 be 0x1234).wellFormed = true := by decide

/-! ## Decode: words written out from the spec's encodings (R91 to R107, V1, V18, V21, V22, V29) -/

theorem test_decode_nop : decodeCommand 0b0000000000000000 0xFFFF 0xFFFF 0xFFFF = .nop := by decide
/-- attr: TRN 0, TGT 0, CLR 0, CODE 5; the counts are in bits 15..11, the coordinates in bits 8..0. -/
theorem test_decode_tileO :
    decodeCommand 0b0000000000000101 0b0001001000110100 0b1111111111111111 0b1111111100110100 =
      .tileO 5 52 2 511 31 0x34 := by decide
theorem test_decode_tileO_past_bit14 : decodeCommand 0x5FFF 0x0800 0x0000 0x0000 = .tileO 0x1FFF 0 1 0 0 0 := by decide
theorem test_decode_tileT : decodeCommand 0b1100000000000101 0x0600 0x0800 0x0003 = .tileT 5 0 0 0 1 3 := by decide
theorem test_decode_fillPix : decodeCommand 0b1011111111111111 0x01FF 0x0000 0x00AB = .fillPix 511 0 0 0 0xAB := by decide
theorem test_decode_fillPal : decodeCommand 0b0110000000000000 0xF9FF 0xF9FF 0x0001 = .fillPal 511 31 511 31 1 := by decide
theorem test_decode_ports :
    decodePortWrite 0x0 0xFF = .ok .dmaStart ∧ decodePortWrite 0x1 0xFF = .ok .dmaStop ∧
    decodePortRead 0x2 = .ok .dmaStatus ∧ decodePortWrite 0x3 0 = .ok .adpcm0Start ∧
    decodePortWrite 0x4 0 = .ok .adpcm0Stop ∧ decodePortWrite 0x5 0x45 = .ok (.adpcm0AddrLo 0x45) ∧
    decodePortWrite 0x6 0xFE = .ok (.adpcm0AddrHi 0xFE) ∧ decodePortWrite 0x7 0 = .ok .adpcm1Start ∧
    decodePortWrite 0x8 0 = .ok .adpcm1Stop := by decide
theorem test_decode_ports_refused :
    decodePortRead 0x0 = .error (.readOfWriteOnlyPort 0x0) ∧ decodePortRead 0x5 = .error (.readOfWriteOnlyPort 0x5) ∧
    decodePortWrite 0x2 0 = .error .writeOfStatusPort ∧ decodePortWrite 0x9 0 = .error (.undefinedPort 0x9) ∧
    decodePortRead 0xF = .error (.undefinedPort 0xF) := by decide
/-- i = 4, be = 0b10, d = 0x1234, and i = 0x1FFF, be = 0b01, d = 0xABCD. -/
theorem test_decode_window :
    decodeWinWrite 0b0000000000100_10_0001001000110100 = .ok (.winWrite 4 0b10 0x1234) ∧
    decodeWinWrite 0b1111111111111_01_1010101111001101 = .ok (.winWrite 0x1FFF 0b01 0xABCD) ∧
    decodeWinWrite 0b0000000000100_00_0001001000110100 = .error .windowWriteWithoutByteEnable ∧
    decodeInput (.winRead 0b0000000000100) = .ok (.winRead 4) := by decide
theorem test_decode_events :
    decodeEvent 0b000 = .ok .timerFire ∧ decodeEvent 0b001 = .ok .gen0Vck ∧ decodeEvent 0b010 = .ok (.ctcTo false) ∧
    decodeEvent 0b011 = .ok (.ctcTo true) ∧ decodeEvent 0b100 = .ok .reset ∧
    decodeEvent 0b101 = .error (.undefinedEvent 0b101) ∧ decodeEvent 0b111 = .error (.undefinedEvent 0b111) := by decide
/-- The assembler of R102 and R99: V7's words, and tile 0 drawn opaque. -/
theorem test_encode_tileO :
    encode (.tileO 10 16 1 8 1 0) = .command 0x000A 0x0810 0x0808 0x0000 ∧
    encode (.tileO 0 0 0 0 0 1) = .command 0x4000 0 0 1 := by decide
theorem test_decodeTableWord :
    decodeTableWord 64 0x0002000000000005 = some (.tileO 5 0 0 0 0 2) ∧ decodeTableWord 16 0x8000 = some (.tileT 0 0 0 0 0 0) ∧
    decodeTableWord 8 0x3 = some .adpcm0Start ∧ decodeTableWord 13 0x1FFF = some (.winRead 0x1FFF) ∧
    decodeTableWord 32 0x00000000 = none := by decide

/-! ## Operands (V6, V38, V37, V14, V22) -/

theorem test_pixel_decode :
    (List.range 8).map (pixelOf ref 0x0102 0x0408) = [1, 2, 4, 8, 0, 0, 0, 0] ∧
    (List.range 8).map (pixelOf { ref with pixelOrder := .msbFirst } 0x8001 0) = [1, 0, 0, 0, 0, 0, 0, 2] := by decide
theorem test_pixel_decode_other_map :
    (List.range 8).map (pixelOf { ref with planeMap := ⟨.w1lo, .w1hi, .w0lo, .w0hi⟩ } 0x0102 0x0408) =
      [8, 4, 2, 1, 0, 0, 0, 0] := by decide
theorem test_base_pixel : basePix 0xAB = 0xB0 ∧ basePix 0x02 = 0x20 := by decide
theorem test_far_corner : fbAddr ref 766 766 = 2 * 0x1FEFE ∧ (766 * 512 + 766) * 2 = 785916 := by decide

/-! ## The instructions, one step each -/

theorem test_nop : fieldOf State.cnt (exec .nop State.reset) = some 0 := by decide
/-- V5 -/
theorem test_tileO :
    let t := tileDraw ref false 1 (blockOf 0 0 0 0) 0x03 withTile1
    pixelByte ref t 0 0 = 0x32 ∧ pixelByte ref t 0 7 = 0x31 ∧ pixelByte ref t 7 7 = 0x30 ∧ paletteByte ref t 0 0 = 0xEE ∧
      pixelByte ref t 0 8 = 0xEE ∧ t.cnt = 64 := by decide +kernel
/-- V18: tile 0x2000 after tile 0x1FFF wraps to tile 0. -/
theorem test_tileO_wraps :
    let t := tileDraw ref false 0x1FFF (blockOf 0 1 0 0) 0 { State.reset with ts := [(0, 0xFF), (1, 0x00)] }
    pixelByte ref t 0 0 = 0x00 ∧ pixelByte ref t 0 8 = 0x01 := by decide +kernel
/-- V3 -/
theorem test_tileT :
    let t := tileDraw ref true 1 (blockOf 0 0 0 0) 0x03 withTile1
    t.fb = [(1, 0x32), (15, 0x31)] ∧ t.cnt = 2 := by decide +kernel
theorem test_tileT_counts_skips :
    (tileDraw { ref with countTransparentSkips := true } true 1 (blockOf 0 0 0 0) 0x03 withTile1).cnt = 64 := by
  decide +kernel
/-- V12 -/
theorem test_fillPix :
    let t := fill ref .pixel (blockOf 511 0 0 0) 0x77 State.reset
    pixelByte ref t 0 511 = 0x77 ∧ pixelByte ref t 8 6 = 0x77 ∧ pixelByte ref t 0 0 = 0xEE ∧ t.cnt = 64 := by decide +kernel
/-- V10 -/
theorem test_fillPal :
    let t := fill ref .palette (blockOf 8 0 0 0) 0x11 State.reset
    paletteByte ref t 0 8 = 0x11 ∧ pixelByte ref t 0 8 = 0xEE ∧ paletteByte ref t 7 15 = 0x11 ∧ paletteByte ref t 0 7 = 0xEE := by
  decide +kernel
/-- V1: the slot of the worked example, under REF with tile 5 all zero. -/
theorem test_dmaStart_slot :
    let t := replaySlot ref .bank0 0 { State.reset with bank0 := wordCells 0 0x0005 ++ wordCells 3 0x0002 }
    t.cnt = 64 ∧ pixelByte ref t 7 7 = 0x20 ∧ pixelByte ref t 8 0 = 0xEE := by decide +kernel
/-- V24, V25: a count of 64 with nothing pending, and a count of 0 with an event pending. -/
theorem test_dmaStart_settles :
    (settleBusy ref 64 State.reset).outputs = [.sched (64 * 3)] ∧ (settleBusy ref 64 State.reset).pending = some (64 * 3) ∧
    (settleBusy ref 64 { State.reset with busy := true, pending := some 1 }).outputs = [.cancel, .sched (64 * 3)] ∧
    (settleBusy ref 0 { State.reset with busy := true, pending := some 192 }).outputs = [.cancel] ∧
    (settleBusy ref 0 { State.reset with busy := true, pending := some 192 }).busy = false := by decide
/-- V26 -/
theorem test_dmaStop :
    fieldOf State.outputs (exec .dmaStop { State.reset with busy := true, pending := some 192 }) = some [.cancel] ∧
    fieldOf State.outputs (exec .dmaStop State.reset) = some [] := by decide
theorem test_dmaStatus :
    fieldOf State.reply (exec .dmaStatus { State.reset with busy := true }) = some (some 0x0001) ∧
    fieldOf State.reply (exec .dmaStatus State.reset) = some (some 0x0000) := by decide
/-- V28 -/
theorem test_winWrite :
    let s := { State.reset with activeBank := .bank1, bank1 := [(8, 0xAB), (9, 0xCD)] }
    fieldOf State.bank1 (exec (.winWrite 4 0b10 0x1234) s) = some [(8, 0x12), (9, 0xCD)] ∧
    fieldOf State.bank1 (exec (.winWrite 4 0b01 0x5678) s) = some [(8, 0xAB), (9, 0x78)] ∧
    fieldOf State.bank0 (exec (.winWrite 4 0b11 0x5678) s) = some [] := by decide
theorem test_winRead :
    fieldOf State.reply (exec (.winRead 4) { State.reset with bank0 := [(8, 0x12), (9, 0x78)] }) = some (some 0x1278) := by
  decide
/-- V27, V42 -/
theorem test_timerFire :
    fieldOf State.busy (exec .timerFire { State.reset with busy := true, pending := some 192 }) = some false ∧
    faultOf (exec .timerFire State.reset) = some (.defect .timerFireWithNothingPending) := by decide
theorem test_adpcm0Start :
    fieldOf State.outputs (exec .adpcm0Start State.reset) = some [.rst .ch0 false] ∧
    fieldOf State.ch0 (exec .adpcm0Start State.reset) = some ⟨0, false, false⟩ := by decide
/-- V37 -/
theorem test_adpcm0Stop :
    fieldOf State.ch0 (exec .adpcm0Stop (playing0 0x123AB true)) = some ⟨0x12300, false, true⟩ := by decide
/-- V38 -/
theorem test_adpcm0AddrLo :
    fieldOf State.ch0 (exec (.adpcm0AddrLo 0x45) (playing0 0x123AB true)) = some ⟨0x145AB, true, false⟩ := by decide
theorem test_adpcm0AddrHi :
    fieldOf State.ch0 (exec (.adpcm0AddrHi 0xFE) (playing0 0x145AB false)) = some ⟨0x645AB, false, false⟩ ∧
    fieldOf State.ch0 (exec (.adpcm0AddrHi 0x00) (playing0 0x1FFFFF false)) = some ⟨0x18FFFF, false, false⟩ := by decide
/-- V30 -/
theorem test_adpcm1Start : fieldOf State.outputs (exec .adpcm1Start State.reset) = some [.rst .ch1 false] := by decide
/-- V35 -/
theorem test_adpcm1Stop :
    fieldOf State.ch1 (exec .adpcm1Stop (playing1 0x0456 true false)) = some ⟨0x0456, false, true⟩ := by decide
/-- V39 -/
theorem test_gen0Vck :
    (advance ref .ch0 (playing0 0x7FFFF true)).outputs = [.nib .ch0 0xB] ∧
    (advance ref .ch0 (playing0 0x7FFFF true)).ch0 = ⟨0x80000, false, false⟩ := by decide
theorem test_gen0Vck_wraps : (advance ref .ch0 (playing0 0x1FFFFF true)).ch0 = ⟨0, false, false⟩ := by decide
/-- V33 -/
theorem test_ctcTo_loop :
    let t := clockLevel ref false (playing1 0x1FFF true false)
    t.outputs = [.nib .ch1 0xE, .rst .ch1 true, .vck1 false, .rst .ch1 false] ∧ t.ch1 = ⟨0, false, false⟩ ∧
      t.clockToggle = true := by decide
/-- V31, V32 -/
theorem test_ctcTo_pulse :
    (clockLevel ref false (playing1 0 false true)).outputs = [.vck1 true] ∧
    (clockLevel ref true (playing1 0 false true)).outputs = [] := by decide
/-- V41 -/
theorem test_reset :
    fieldOf State.outputs (exec .reset { playing0 5 true with busy := true, pending := some 1, fb := [(0, 1)] }) =
      some [.cancel, .rst .ch0 true, .rst .ch1 true, .vck1 false] ∧
    fieldOf State.fb (exec .reset { playing0 5 true with fb := [(0, 1)] }) = some [(0, 1)] := by decide

/-! ## The step -/

theorem test_step_runs_the_next_input :
    stateOf (step (awaiting [.op (.portWrite 0x3 0), .op (.event 0b011)])) =
      some { awaiting [.op (.event 0b011)] with
        ch0 := ⟨0, false, false⟩, outReset0 := false, outputs := [.rst .ch0 false] } := by decide
theorem test_step_idle : stateOf (step State.reset) = some State.reset := by decide
theorem test_step_refuses : refusalOf? (step (awaiting [.op (.portWrite 0x9 0)])) = some (.undefinedPort 0x9) := by decide
/-- V42 -/
theorem test_step_pointer_defect :
    faultOf (step { playing1 0x2000 false false with inputs := [.op (.event 0b100)] }) =
      some (.defect (.channel1PointerOutOfRange (.op (.event 0b100)))) := by decide
/-- A placed table word is what the next step runs: an event, a port write, and a command with its trigger. -/
theorem test_withFetchWord :
    fieldOf State.prevClockToggle (step (State.reset.withFetchWord 3 0b011)) = some true ∧
    fieldOf State.ch0 (step (State.reset.withFetchWord 12 0x455)) = some ⟨0x4500, false, true⟩ ∧
    (State.reset.withFetchWord 16 0x2000).inputs = [.op (.portWrite 0x0 0)] := by decide
theorem test_withFetchWord_command : (stateOf (step (State.reset.withFetchWord 64 0x00AB000000002000))).isSome = true := by
  rfl
/-- The command stands in slot 0 of the active bank. -/
theorem test_withFetchWord_slot :
    slotCommand ref (State.reset.withFetchWord 64 0x00AB000000002000) .bank0 0 = .fillPix 0 0 0 0 0xAB := by rfl

/-! ## The host's accesses -/

/-- R61: the even byte of the window is the high lane; a port takes the low 8 bits; an address between two ports is none. -/
theorem test_routing :
    routeAccess ref (.write 8 .byte 0x5A) = some (.op (.winWrite (encodeTuple 4 0b10 0x5A5A)) .both) ∧
    routeAccess ref (.write 0x400A .word 0x1234) = some (.op (.portWrite 0x5 0x34) .both) ∧
    routeAccess ref (.read 0x100003 .byte) = some (.mem (.fbRead 1 .low)) ∧
    routeAccess ref (.read 0x4001 .byte) = none := by decide
theorem test_host_hazard :
    faultOf (hostAccess { ref with busyHazardPolicy := .fault } (.fbRead 0 .both) { State.reset with busy := true }) =
      some .busyHazard ∧
    fieldOf State.reply (hostAccess ref (.fbRead 0 .both) { State.reset with busy := true }) = some (some 0xEEEE) := by decide

/-- R29, R43: a tile source that is ROM reads as the launch says, and a host write leaves it. -/
def romLaunch : Launch := { ref with tileRom := fun i => if i = 5 then some 0xABCD else none }
theorem test_tileRom :
    fieldOf State.reply (hostAccess romLaunch (.tsRead 5 .both) State.reset) = some (some 0xABCD) ∧
    fieldOf State.ts (hostAccess romLaunch (.tsWrite 5 .both 0x1234) State.reset) = some [] ∧
    fieldOf State.ts (hostAccess romLaunch (.tsWrite 6 .low 0x1234) State.reset) = some [(13, 0x34)] := by decide

/-! ## Witnesses: for each obligation with hypotheses, a state and operands that meet them, clause by clause -/

/-- A state with no memory written whose lines follow the rules meets the invariant. -/
theorem awaiting_inv (is : List Input) : Inv (awaiting is) where
  memories sp := by
    have e : (awaiting is).mem sp = [] := by rcases sp with (_ | _) | _ | _ <;> rfl
    rw [e]
    exact ⟨List.Pairwise.nil, fun c hc => by cases hc⟩
  tileRomUnlisted c hc := by cases hc
  busyPending := rfl
  deadline d hd := by cases hd
  countBound := Nat.zero_le _
  noRunningCount := rfl
  pointer1 := Nat.zero_lt_succ _
  resetLine0 := rfl
  resetLine1 := rfl
  clockLine h := by cases h

theorem witness_DecodeOfEncode : (Instr.winWrite 0x1FFF 0b01 0xFFFF).wellFormed = true := by decide
theorem witness_UnreadCommandBits :
    ((0x1FFF : Word) &&& 0x2000 = 0 ∧ (0x1FFF : Word) ≠ 0 ∧ (0x1FFF : Word) ^^^ 0x4000 ≠ 0) ∧ (0xFFFF : Word) &&& 0x2000 ≠ 0 := by
  decide
theorem witness_CommandArithmetic :
    31 < (blockOf 511 31 511 31).w ∧ 31 < (blockOf 511 31 511 31).h ∧ 7 < 8 ∧
    (blockOf 511 31 511 31).y + 8 * 31 + 7 = 766 ∧ (0x1FFF#13).toNat + (31 * (blockOf 511 31 511 31).h + 31) = 0x23FE := by
  decide
theorem witness_StepRuns :
    (awaiting [.op (.event 0b100)]).inputs = .op (.event 0b100) :: [] ∧
    (awaiting [.op (.event 0b100)]).ch1.romPointer.toNat < 0x2000 ∧ decode (.input (.event 0b100)) = .ok .reset := by decide
theorem witness_StepRefusesInputs (w : InputWord) :
    (awaiting [.op w]).inputs = .op w :: [] ∧ (awaiting [.op w]).ch1.romPointer.toNat < 0x2000 ∧ 9 ≤ (0x9#4).toNat ∧
    9 ≤ (0xF#4).toNat ∧ (0x0#4).toNat ≤ 8 ∧ (0x8#4).toNat ≤ 8 ∧ (0x8#4).toNat ≠ 2 ∧
    InputWord.portRead 0x0 = .portRead 0x0 ∧ InputWord.winWrite (encodeTuple 0x1FFF 0b00 1) = .winWrite 0x7FFC0001 := by
  exact ⟨rfl, show (0#21).toNat < 0x2000 by decide, by decide⟩
theorem witness_StepRefusesEvents :
    (awaiting [.op (.event 0b101)]).inputs = .op (.event 0b101) :: [] ∧
    (awaiting [.op (.event 0b101)]).ch1.romPointer.toNat < 0x2000 ∧ 5 ≤ (0b101#3).toNat ∧ 5 ≤ (0b111#3).toNat := by decide
theorem witness_StepWithoutInput : State.reset.inputs = [] := rfl
theorem witness_PointerOutOfRange :
    { playing1 0x2000 false false with inputs := [.op (.event 0b100)] }.inputs = .op (.event 0b100) :: [] ∧
    0x2000 ≤ (playing1 0x2000 false false).ch1.romPointer.toNat ∧ 0x2000 ≤ (playing1 0x1FFFFF false false).ch1.romPointer.toNat := by
  decide
theorem witness_Faults :
    Inv (awaiting [.op (.event 0b000)]) ∧
    step (awaiting [.op (.event 0b000)]) = .fault (.defect .timerFireWithNothingPending) := ⟨awaiting_inv _, rfl⟩
theorem witness_EveryStep : ∃ t, Inv (awaiting [.op (.event 0b100)]) ∧ step (awaiting [.op (.event 0b100)]) = .next t :=
  ⟨_, awaiting_inv _, rfl⟩
theorem witness_RunsWithoutCompletion :
    Inv (awaiting [.op (.event 0b001), .op (.portWrite 0x0 0), .op (.portRead 0x2), .op (.winRead 4)]) ∧
    ∀ e ∈ (awaiting [.op (.event 0b001), .op (.portWrite 0x0 0), .op (.portRead 0x2), .op (.winRead 4)]).inputs,
      e.notTimer = true := ⟨awaiting_inv _, by decide⟩
/-- The writers' statements: an instruction that goes on, of each kind they name. -/
theorem witness_writers :
    (stateOf (exec .dmaStop State.reset)).isSome = true ∧ (stateOf (exec (.winWrite 0 0b11 1) State.reset)).isSome = true ∧
    (stateOf (exec (.adpcm0AddrHi 7) State.reset)).isSome = true ∧ (stateOf (exec (.ctcTo true) State.reset)).isSome = true ∧
    isCommand .dmaStop = false ∧ isCommand .nop = true := by decide
theorem witness_commands :
    (stateOf (exec (.fillPal 0 0 0 0 1) State.reset)).isSome = true ∧
    (stateOf (exec (.fillPix 0 0 0 0 1) State.reset)).isSome = true := ⟨rfl, rfl⟩
/-- R202's carry: the pointer's low 19 bits are all 1 and the low nibble is next. -/
theorem witness_carry :
    (stateOf (exec .gen0Vck (playing0 0x7FFFF true))).isSome = true ∧ (playing0 0x7FFFF true).ch0.held = false ∧
    (playing0 0x7FFFF true).ch0.nibblePhase = true ∧ (playing0 0x7FFFF true).ch0.romPointer.extractLsb' 0 19 = 0x7FFFF := by
  decide

/-- An even address is no pixel byte and an odd one no palette byte, so each lies outside every footprint of the other
plane. -/
theorem witness_fill_outside (b : Block) : ¬ inFootprint Config.launch b 1 0 ∧ ¬ inFootprint Config.launch b 0 1 := by
  constructor
  · rintro ⟨r, q, -, -, e⟩; omega
  · rintro ⟨r, q, -, -, e⟩
    rw [fbAddr_even Config.launch_allowed] at e; omega
theorem witness_fill_inside : 255 < 8 * ((31#5).toNat + 1) ∧ 7 < 8 * ((0#5).toNat + 1) := by decide
/-- The last pixel of a one tile block: no later pixel reaches its byte. -/
theorem witness_OpaqueTileDraw :
    0 < (0#5).toNat + 1 ∧ 7 < 8 ∧
    ∀ j' k' r' q', j' < (0#5).toNat + 1 → k' < (0#5).toNat + 1 → r' < 8 → q' < 8 →
      walkPlace ((0#5).toNat + 1) 0 0 7 7 < walkPlace ((0#5).toNat + 1) j' k' r' q' →
      fbAddr Config.launch (0 + 8 * k' + r') (0 + 8 * j' + q') ≠ fbAddr Config.launch (0 + 8 * 0 + 7) (0 + 8 * 0 + 7) := by
  refine ⟨by decide, by decide, fun j k r q hj hk hr hq h => ?_⟩
  simp [walkPlace] at h hj hk
  omega

/-- A tile source whose first tile's last row is all ones. -/
def solidRow : State := { State.reset with ts := [(28, 0xFF), (29, 0xFF), (30, 0xFF), (31, 0xFF)] }

theorem tileSrcWords_ge {L : Launch} (hL : L.Allowed) : 16 ≤ L.tileSrcWords := by
  obtain ⟨k, hk, e⟩ := hL.tileSrcWords
  rw [e]; exact Nat.pow_le_pow_right (n := 2) (by decide) hk

theorem solidRow_words {L : Launch} (hL : L.Allowed) (h14 : L.tileRom 14 = none) (h15 : L.tileRom 15 = none) :
    tsRead L solidRow 14 = 0xFFFF ∧ tsRead L solidRow 15 = 0xFFFF := by
  have h := tileSrcWords_ge hL
  have e14 : tsWordIndex L 14 = 14 := Nat.mod_eq_of_lt (by omega)
  have e15 : tsWordIndex L 15 = 15 := Nat.mod_eq_of_lt (by omega)
  rw [tsRead_ram (by rw [e14]; exact h14), tsRead_ram (by rw [e15]; exact h15), e14, e15]
  exact ⟨show wordOf 0xFF 0xFF = 0xFFFF from rfl, show wordOf 0xFF 0xFF = 0xFFFF from rfl⟩

/-- Under every launch, a row of all ones has no transparent pixel. -/
theorem pixelOf_ones (L : Launch) (q : Nat) (hq : q < 8) : pixelOf L 0xFFFF 0xFFFF q ≠ 0 := by
  have hb : ∀ p, planeByte 0xFFFF 0xFFFF p = 0xFF := by intro p; cases p <;> rfl
  unfold pixelOf
  simp only [hb]
  cases L.pixelOrder
  · revert q; decide
  · revert q; decide

/-- The last pixel of a solid tile, under every launch whose tile source is RAM there: it is written, and no later pixel
reaches its byte; and an even address is no pixel's byte. One of the two clauses on the count applies. -/
theorem witness_TransparentTileDraw {L : Launch} (hL : L.Allowed) (h14 : L.tileRom 14 = none) (h15 : L.tileRom 15 = none) :
    tilePixel L solidRow (0#13).toNat ((0#5).toNat + 1) 0 0 7 7 ≠ 0 ∧
    (∀ j' k' r' q', j' < (0#5).toNat + 1 → k' < (0#5).toNat + 1 → r' < 8 → q' < 8 →
      walkPlace ((0#5).toNat + 1) 0 0 7 7 < walkPlace ((0#5).toNat + 1) j' k' r' q' →
      tilePixel L solidRow (0#13).toNat ((0#5).toNat + 1) j' k' r' q' ≠ 0 →
      fbAddr L (0 + 8 * k' + r') (0 + 8 * j' + q') ≠ fbAddr L (0 + 8 * 0 + 7) (0 + 8 * 0 + 7)) ∧
    (∀ Y X, 0 ≠ fbAddr L Y X + 1) ∧ (L.countTransparentSkips = true ∨ L.countTransparentSkips = false) := by
  refine ⟨?_, fun j k r q hj hk hr hq h _ => ?_, fun Y X => by omega, by cases L.countTransparentSkips <;> simp⟩
  · show pixelOf L (tsRead L solidRow 14) (tsRead L solidRow 15) 7 ≠ 0
    rw [(solidRow_words hL h14 h15).1, (solidRow_words hL h14 h15).2]
    exact pixelOf_ones _ 7 (by decide)
  · simp [walkPlace] at h hj hk
    omega
/-- Such a launch is the reference. -/
theorem witness_TransparentTileDraw_ref : tilePixel ref solidRow (0#13).toNat ((0#5).toNat + 1) 0 0 7 7 ≠ 0 :=
  (witness_TransparentTileDraw ref_allowed rfl rfl).1
theorem witness_TileWalk : 31 < 32 ∧ (tileWalk 20 3 2).map (·.2) = [20, 21, 22, 23, 24, 25] ∧
    (tileWalk 20 3 2)[2 * 2 + 1]? = some ((2, 1), 25) := by decide
theorem witness_PixelDecode :
    7 < 8 ∧ ref.planeMap = ⟨.w0hi, .w0lo, .w1hi, .w1lo⟩ ∧ ref.pixelOrder = .lsbFirst ∧
    { ref with pixelOrder := .msbFirst }.pixelOrder = .msbFirst := by decide
theorem romLaunch_allowed : romLaunch.Allowed where
  fbBytes := ref_allowed.fbBytes
  tileSrcWords := ref_allowed.tileSrcWords
  planeMap := ref_allowed.planeMap
  dmaClkPeriod := ref_allowed.dmaClkPeriod
  rom0Bytes := ref_allowed.rom0Bytes
  rom1Bytes := ref_allowed.rom1Bytes
  addrMap := ref_allowed.addrMap
theorem witness_TileSource :
    romLaunch.Allowed ∧ romLaunch.tileSrcWords ≤ 2 ^ 17 ∧ 15 < 16 ∧
    romLaunch.tileRom (5 % romLaunch.tileSrcWords) = some 0xABCD ∧ romLaunch.tileRom (4 % romLaunch.tileSrcWords) = none :=
  ⟨romLaunch_allowed, by decide, by decide, by decide, by decide⟩
theorem witness_FrameBuffer : ref.Allowed ∧ 1024 ≤ ref.fbBytes := ⟨ref_allowed, by decide⟩
theorem witness_Memory : Memory.wf [(0, 1), (7, 2)] ∧ Memory.wf (Memory.store [(0, 1), (7, 2)] 5 3) ∧ (6 : Nat) ≠ 5 := by decide

/-- A bank of zeros. -/
def zeroCells (n : Nat) : Memory := (List.range n).map fun a => (a, 0)

theorem load?_zeroCells {n a : Nat} (h : a < n) : (zeroCells n).load? a = some 0 := by
  have key : ∀ l : List Nat, a ∈ l → Memory.load? (l.map fun a => (a, 0)) a = some 0 := by
    intro l
    induction l with
    | nil => intro h; cases h
    | cons b l ih =>
      intro h
      by_cases e : b = a
      · simp [Memory.load?, e]
      · simpa [Memory.load?, e] using ih ((List.mem_cons.1 h).resolve_left (Ne.symm e))
  exact key _ (List.mem_range.2 h)

/-- The active bank holds these cells. -/
def withBank0 (m : Memory) : State := { State.reset with bank0 := m }

theorem mem_withBank0 (m : Memory) : (withBank0 m).mem (.bank .bank0) = m := rfl
theorem activeBank_withBank0 (m : Memory) : (withBank0 m).activeBank = .bank0 := rfl
theorem mem_flipped (s : State) (b : BankId) :
    State.mem { s with activeBank := b } (.bank .bank0) = s.mem (.bank .bank0) := rfl

/-- The active bank is all zeros. -/
def emptyBank : State := withBank0 (zeroCells 0x4000)

theorem emptyBank_words (i : Nat) (h : i < 0x2000) : bankWord Config.launch emptyBank .bank0 i = 0 := by
  have e : ∀ a, a < 0x4000 → readByte Config.launch emptyBank (.bank .bank0) a = 0 := by
    intro a ha
    have hm : emptyBank.mem (.bank .bank0) = zeroCells 0x4000 := mem_withBank0 _
    unfold readByte
    rw [hm, load?_zeroCells ha]; rfl
  unfold bankWord readWord
  rw [e _ (by omega), e _ (by omega)]; rfl

theorem witness_TriggerOverEmptyBank :
    ∀ k, k < 0x800 → bankWord Config.launch emptyBank emptyBank.activeBank (4 * k) = 0 :=
  fun k hk => emptyBank_words (4 * k) (by omega)

/-- Slot 0 of the active bank is a fill of 64 pixels; the other slots hold what they hold at power-on. -/
def fillBank : State := withBank0 (wordCells 0 0x2000 ++ wordCells 1 0 ++ wordCells 2 0 ++ wordCells 3 1)

/-- Both clauses of the trigger's settling are met: a replay that counts nothing and one that counts something. -/
theorem witness_TriggerSettles :
    (trigger Config.launch emptyBank).pixelsProcessed = 0 ∧ (trigger Config.launch fillBank).pixelsProcessed ≠ 0 := by
  constructor
  · rw [trigger_pixelsProcessed]
    apply BitVec.eq_of_toNat_eq
    rw [(replay_cnt _ _ _).1]
    have e : ∀ k ∈ List.range slots,
        slotCount Config.launch { emptyBank with activeBank := otherBank emptyBank.activeBank } emptyBank.activeBank k = 0 := by
      intro k hk
      have hk' : k < 0x800 := List.mem_range.1 hk
      have hw : bankWord Config.launch { emptyBank with activeBank := otherBank emptyBank.activeBank }
          emptyBank.activeBank (4 * k) = 0 :=
        (bankWord_congr (mem_flipped emptyBank _) (4 * k)).trans (emptyBank_words (4 * k) (by omega))
      unfold slotCount
      rw [hw]; rfl
    rw [List.map_congr_left e]
    simp
  · rw [trigger_pixelsProcessed]
    intro h
    have h' := congrArg BitVec.toNat h
    rw [(replay_cnt _ _ _).1] at h'
    have h0 : slotCount Config.launch { fillBank with activeBank := otherBank fillBank.activeBank } fillBank.activeBank 0 = 64 := by
      rfl
    have hle := List.single_le_sum (l := (List.range slots).map
      (slotCount Config.launch { fillBank with activeBank := otherBank fillBank.activeBank } fillBank.activeBank))
      (fun x _ => Nat.zero_le x) 64 (List.mem_map.2 ⟨0, List.mem_range.2 (by decide), h0⟩)
    rw [h'] at hle
    exact absurd hle (by decide)

theorem witness_ReplayCount : exec .dmaStart fillBank = .next (trigger Config.launch fillBank) := rfl
theorem witness_Completion :
    { State.reset with busy := true, pending := some 192 }.pending = some 192 ∧ State.reset.pending = none := by decide
theorem witness_WindowWrite :
    (0b01 : BitVec 2) ≠ 0 ∧ (0b10 : BitVec 2) ≠ 0 ∧ (0b11 : BitVec 2) ≠ 0 ∧ (0b00 : BitVec 2) = 0 := by decide
theorem witness_Gen0 :
    State.reset.ch0.held = true ∧ (playing0 0 false).ch0.held = false ∧ (playing0 0 false).ch0.nibblePhase = false ∧
    (playing0 0x1FFFFF true).ch0.held = false ∧ (playing0 0x1FFFFF true).ch0.nibblePhase = true := by decide
theorem witness_PlayFromPage : 0x7FF00 < 2 ^ 19 ∧ 0x7FF00 % 0x100 = 0 ∧ 0 < 2 ^ 19 ∧ 0 % 0x100 = 0 := by decide
theorem witness_ClockLevels :
    State.reset.prevClockToggle = false ∧ (playing1 0 false true).prevClockToggle = true ∧
    (playing1 0 false true).clockToggle = true := by decide
/-- The advance's clauses: held, the high nibble, the low nibble below the loop address, and the last byte. -/
theorem witness_AdvancePhase :
    ∀ s ∈ [{ playing1 0x1FFF true false with ch1 := ⟨0x1FFF, false, true⟩ }, playing1 0x1FFF false false,
        playing1 0x1FFE true false, playing1 0x1FFF true false],
      s.prevClockToggle = true ∧ s.clockToggle = false ∧ s.ch1.romPointer.toNat < 0x2000 := by decide
theorem witness_AdvancePhase_clauses :
    (playing1 0x1FFE true false).ch1.romPointer.toNat < 0x1FFF ∧ (playing1 0x1FFF true false).ch1.romPointer.toNat = 0x1FFF ∧
    (playing1 0x1FFF true false).ch1.held = false ∧ (playing1 0x1FFF true false).ch1.nibblePhase = true := by decide
theorem witness_Channel1Loops :
    let s := { playing1 0 false false with prevClockToggle := false }
    s.prevClockToggle = false ∧ s.clockToggle = false ∧ s.ch1.held = false ∧ s.ch1.nibblePhase = false ∧
      s.ch1.romPointer = 0 ∧ 0x7FFE < 0x7FFF := by decide
theorem witness_Commute : ∃ d : Byte, Instr.adpcm0AddrLo 5 = .adpcm0AddrLo d := ⟨5, rfl⟩
theorem witness_HostAccess :
    { ref with busyHazardPolicy := .fault }.busyHazardPolicy = .fault ∧ { State.reset with busy := true }.busy = true ∧
    ref.busyHazardPolicy = .atomic ∧ State.reset.busy = false ∧ (2 : Nat) / 2 ≠ 0 % (ref.fbBytes / 2) ∧
    romLaunch.busyHazardPolicy = .atomic ∧ romLaunch.tileRom (5 % romLaunch.tileSrcWords) = some 0xABCD ∧
    romLaunch.tileRom (6 % romLaunch.tileSrcWords) = none := by decide
theorem witness_HostAccess_lanes :
    (0 : Nat) = 2 * (0 % (ref.fbBytes / 2)) ∧ Lanes.high ≠ .low ∧ Lanes.low ≠ .high ∧ Lanes.both ≠ .low ∧
    ¬ (Lanes.high ≠ .low ∧ 1 = 2 * (0 % (ref.fbBytes / 2)) ∨ Lanes.high ≠ .high ∧ 1 = 2 * (0 % (ref.fbBytes / 2)) + 1) := by
  decide
/-- Each clause of the statements on accesses by address: its one access is the next input, at an offset inside its
item. -/
theorem witness_accesses (b : BusAccess) :
    (awaiting [.bus b]).inputs = .bus b :: [] ∧ (awaiting [.bus b]).ch1.romPointer.toNat < 0x2000 ∧ 0x3FFF < 0x4000 ∧
    (2 : Fin 9).val = 2 ∧ (8 : Fin 9).val ≠ 2 := ⟨rfl, show (0#21).toNat < 0x2000 by decide, by decide⟩
theorem witness_MemoryAccess :
    1 < Config.launch.fbBytes ∧ 1 < 2 * Config.launch.tileSrcWords ∧
    (Width.byte = .byte ∧ Lanes.low = (if 1 % 2 = 0 then .high else .low) ∧
      (0x7E7E : Word) = (0x127E : Word).extractLsb' 0 8 ++ (0x127E : Word).extractLsb' 0 8) := by
  obtain ⟨n, hn, e⟩ := Config.launch_allowed.fbWords
  have := Config.launch_allowed.tileSrcWords_pos
  exact ⟨by omega, by omega, by decide⟩
/-- Addresses past every item belong to none, and a read of a write-only port is refused. -/
theorem witness_AccessOutside :
    (∃ addr, ∀ i off, off < Config.launch.extent i → addr ≠ Config.launch.addrMap i + off) ∧
    step (awaiting [.bus (.read (Config.launch.addrMap (.port 8)) .byte)]) = .refused (.readOfWriteOnlyPort 0x8) := by
  constructor
  · refine ⟨(MapItem.all.map fun i => Config.launch.addrMap i + Config.launch.extent i).sum, fun i off h e => ?_⟩
    have := List.single_le_sum (fun _ _ => Nat.zero_le _) _
      (List.mem_map_of_mem (f := fun i => Config.launch.addrMap i + Config.launch.extent i) i.mem_all)
    omega
  · have h := routeAccess_read Config.launch_allowed (i := .port 8) (off := 0) Nat.zero_lt_one .byte
    rw [Nat.add_zero] at h
    show deliver (.bus (.read (Config.launch.addrMap (.port 8)) .byte)) _ = _
    simp only [deliver, h, routeRead]
    rfl

end Sys2Proof.Tests
end

