-- ==== Sys2Proof/Proofs/Scope.lean ====
section
/-! PROOFS. The statements of 00_scope.md: a step runs the instruction its input decodes to (R13), and a host access by
address is the operation that ADDR_MAP names there (R12, R74). -/

namespace Sys2Proof.Machine

/-! ## A step and its next input -/

/-- Two next inputs that deliver the same give the same step. -/
theorem step_eq_step_of_deliver {s : State} {e e' : Input} {rest : List Input} (h : s.inputs = e :: rest)
    (hp : s.ch1.romPointer.toNat < 0x2000) (hd : deliver e (takeInput rest s) = deliver e' (takeInput rest s)) :
    step s = step { s with inputs := e' :: rest } := by
  rw [step_deliver h hp, hd]
  exact (step_deliver (s := { s with inputs := e' :: rest }) rfl hp).symm

theorem runInput_of_ok {w : InputWord} {i : Instr} (h : decodeInput w = .ok i) (s : State) : runInput w s = exec i s := by
  simp [runInput, h]

theorem runInput_of_error {w : InputWord} {e : Reject} (h : decodeInput w = .error e) (s : State) :
    runInput w s = .refused (refusalOf e) := by
  simp [runInput, h]

/-- Settles O6: with the pointer in range the step delivers its input, and an input that decodes runs. -/
theorem stepRunsTheDecodedInstruction : Obligations.StepRunsTheDecodedInstruction := by
  unfold Obligations.StepRunsTheDecodedInstruction
  intro s w rest i hin hp hd
  calc step s = deliver (.op w) (takeInput rest s) := step_deliver hin hp
    _ = exec i (takeInput rest s) := runInput_of_ok hd _

/-! ## The ports by address -/

theorem port_extent_pos (sel : Fin 9) : 0 < Config.launch.extent (.port sel) := Config.launch_allowed.extent_pos _

theorem deliver_port_read (sel : Fin 9) (n : Width) (s : State) :
    deliver (.bus (.read (Config.launch.addrMap (.port sel)) n)) s =
      keepLanes (portLanes n) (runInput (.portRead (portSel sel)) s) :=
  deliver_read (port_extent_pos sel) n s

theorem deliver_port_write (sel : Fin 9) (n : Width) (v : Word) (s : State) :
    deliver (.bus (.write (Config.launch.addrMap (.port sel)) n v)) s =
      deliver (.op (.portWrite (portSel sel) (loByte v))) s :=
  (deliver_write (port_extent_pos sel) n v s).trans (keepLanes_both _)

/-- A write-only port is not read (R107). -/
theorem decodeInput_writeOnly :
    ∀ sel : Fin 9, sel.val ≠ 2 → decodeInput (.portRead (portSel sel)) = .error (.readOfWriteOnlyPort (portSel sel)) := by
  decide

/-- Both widths of a read keep the whole of `busy`, which is one bit (R131). -/
theorem selectLanes_statusWord (n : Width) (s : State) :
    selectLanes (portLanes n) (statusWord s) = if s.busy then 0x0001 else 0x0000 := by
  unfold statusWord
  cases n <;> cases s.busy <;> rfl

/-! ## The memories by address -/

/-- A byte stands on the lane of its offset and on both lanes of the data; a word is whole. -/
theorem lanes_and_data {n : Width} {v : Word} {off : Nat} {l : Lanes} {d : Word}
    (h : n = .word ∧ l = .both ∧ d = v ∨
      n = .byte ∧ l = (if off % 2 = 0 then .high else .low) ∧ d = v.extractLsb' 0 8 ++ v.extractLsb' 0 8) :
    lanesAt n off = l ∧ laneData n v = d := by
  obtain ⟨rfl, rfl, rfl⟩ | ⟨rfl, rfl, rfl⟩ := h
  · exact ⟨rfl, rfl⟩
  · exact ⟨rfl, wordOf_eq_append _ _⟩

/-! ## What is refused -/

theorem hostAccess_not_refused {L : Launch} {a : HostAccess} {s : State} {r : Refusal} : hostAccess L a s ≠ .refused r := by
  cases a with
  | fbRead p l => simp only [hostAccess, raiseBusyHazard]; split <;> simp
  | fbWrite p l d => simp only [hostAccess, raiseBusyHazard]; split <;> simp
  | tsRead i l => simp [hostAccess]
  | tsWrite i l d => simp only [hostAccess, raiseBusyHazard]; split <;> simp

theorem keepLanes_refused {l : Lanes} {x : Host.Outcome State Fault Refusal} {r : Refusal}
    (h : keepLanes l x = .refused r) : x = .refused r := by
  cases x <;> cases h
  rfl

/-- The one instruction that is refused: a window write that enables no byte (R107). -/
theorem exec_refused {i : Instr} {s : State} {r : Refusal} (h : exec i s = .refused r) : i.wellFormed = false := by
  cases i
  case winWrite idx be d =>
    simp only [exec, execWinWrite] at h
    split at h
    · cases h
    · next hbe => simpa [Instr.wellFormed] using hbe
  case timerFire =>
    simp only [exec, execTimerFire, raiseDefect] at h
    split at h <;> cases h
  all_goals cases h

/-- The decoder answers no instruction that R107 refuses. -/
theorem decodeInput_wellFormed {w : InputWord} {i : Instr} (h : decodeInput w = .ok i) : i.wellFormed = true := by
  cases w with
  | portWrite sel d => simp only [decodeInput, decodePortWrite] at h; split_ifs at h <;> cases h <;> rfl
  | portRead sel =>
    simp only [decodeInput, decodePortRead] at h
    split_ifs at h
    cases h
    rfl
  | winWrite t =>
    simp only [decodeInput, decodeWinWrite] at h
    split at h
    · next hbe => cases h; exact hbe
    · cases h
  | winRead i => cases h; rfl
  | event sel => simp only [decodeInput, decodeEvent] at h; split_ifs at h <;> cases h <;> rfl

/-- An input is refused by the decoder alone. -/
theorem runInput_refused {w : InputWord} {s : State} {r : Refusal} (h : runInput w s = .refused r) :
    ∃ e, decodeInput w = .error e ∧ r = refusalOf e := by
  cases hd : decodeInput w with
  | ok i =>
    rw [runInput_of_ok hd] at h
    have := exec_refused h
    simp [decodeInput_wellFormed hd] at this
  | error e =>
    rw [runInput_of_error hd] at h
    cases h
    exact ⟨e, rfl, rfl⟩

/-- What a routed access is refused for. -/
theorem runRouted_refused {x : Routed} {s : State} {r : Refusal} (h : runRouted x s = .refused r) :
    ∃ w l e, x = .op w l ∧ decodeInput w = .error e ∧ r = refusalOf e := by
  cases x with
  | op w l =>
    obtain ⟨e, he, hr⟩ := runInput_refused (keepLanes_refused h)
    exact ⟨w, l, e, rfl, he, hr⟩
  | mem a => exact absurd h hostAccess_not_refused

/-- What an access by address is refused for. -/
theorem deliver_bus_refused {b : BusAccess} {s : State} {r : Refusal} (h : deliver (.bus b) s = .refused r) :
    ∃ w l e, routeAccess Config.launch b = some (.op w l) ∧ decodeInput w = .error e ∧ r = refusalOf e := by
  cases hx : routeAccess Config.launch b with
  | none => simp [deliver, hx] at h
  | some x =>
    simp only [deliver, hx] at h
    obtain ⟨w, l, e, rfl, he, hr⟩ := runRouted_refused h
    exact ⟨w, l, e, rfl, he, hr⟩

/-- A read by address spells no operation only at a write-only port. -/
theorem routeRead_error {n : Width} {p : MapItem × Nat} {w : InputWord} {l : Lanes} {e : Reject}
    (h : routeRead n p = .op w l) (he : decodeInput w = .error e) :
    ∃ sel : BitVec 4, e = .readOfWriteOnlyPort sel ∧ sel.toNat ≤ 8 ∧ sel.toNat ≠ 2 := by
  obtain ⟨i, off⟩ := p
  cases i with
  | port sel =>
    cases h
    by_cases h2 : sel.val = 2
    · obtain rfl : sel = 2 := Fin.ext h2
      cases he
    · have hsel : (portSel sel).toNat = sel.val := by simp [portSel]; omega
      have hd := (decodeInput_writeOnly sel h2).symm.trans he
      cases hd
      exact ⟨_, rfl, by omega, by omega⟩
  | window => cases h; cases he
  | frameBuffer => cases h
  | tileSource => cases h

theorem byteEnabled_enableOf (l : Lanes) : byteEnabled (enableOf l) = true := by
  cases l <;> rfl

/-- Of the nine ports, a write is refused at DMA_STATUS alone (R107). -/
theorem decodePortWrite_error {sel : Fin 9} {d : Byte} {e : Reject} (h : decodePortWrite (portSel sel) d = .error e) :
    e = .writeOfStatusPort := by
  fin_cases sel <;> cases h
  rfl

/-- A write by address spells no operation only at DMA_STATUS. -/
theorem routeWrite_error {n : Width} {v : Word} {p : MapItem × Nat} {w : InputWord} {l : Lanes} {e : Reject}
    (h : routeWrite n v p = .op w l) (he : decodeInput w = .error e) : e = .writeOfStatusPort := by
  obtain ⟨i, off⟩ := p
  cases i with
  | port sel => cases h; exact decodePortWrite_error he
  | window =>
    cases h
    simp [decodeInput, decodeWinWrite, tupleEnable_encodeTuple, byteEnabled_enableOf] at he
  | frameBuffer => cases h
  | tileSource => cases h

/-- An access by address is refused only as an input of R107. -/
theorem deliver_bus_refusal {b : BusAccess} {s : State} {r : Refusal} (h : deliver (.bus b) s = .refused r) :
    (∃ sel, r = .readOfWriteOnlyPort sel ∧ sel.toNat ≤ 8 ∧ sel.toNat ≠ 2) ∨ r = .writeOfStatusPort := by
  obtain ⟨w, l, e, hroute, he, rfl⟩ := deliver_bus_refused h
  cases b with
  | read addr n =>
    obtain ⟨p, -, hp⟩ := Option.map_eq_some_iff.1 hroute
    obtain ⟨sel, rfl, hsel⟩ := routeRead_error hp he
    exact .inl ⟨sel, rfl, hsel⟩
  | write addr n v =>
    obtain ⟨p, -, hp⟩ := Option.map_eq_some_iff.1 hroute
    rw [routeWrite_error hp he]
    exact .inr rfl

/-! ## The statement on accesses by address -/

/-- An access at a port's address is an access of that port. -/
theorem step_port_by_address {s : State} {rest : List Input} (n : Width) (v : Word)
    (hp : s.ch1.romPointer.toNat < 0x2000) (sel : Fin 9) :
    (s.inputs = .bus (.write (Config.launch.addrMap (.port sel)) n v) :: rest →
      step s = step { s with inputs := .op (.portWrite (portSel sel) (loByte v)) :: rest }) ∧
    (s.inputs = .bus (.read (Config.launch.addrMap (.port sel)) n) :: rest → sel.val = 2 →
      step s = .next { s with
        inputs := rest, outputs := [], reply := some (if s.busy then 0x0001 else 0x0000) }) ∧
    (s.inputs = .bus (.read (Config.launch.addrMap (.port sel)) n) :: rest → sel.val ≠ 2 →
      step s = .refused (.readOfWriteOnlyPort (portSel sel))) := by
  refine ⟨fun hin => ?_, fun hin h2 => ?_, fun hin h2 => ?_⟩
  · exact step_eq_step_of_deliver hin hp (deliver_port_write sel n v _)
  · obtain rfl : sel = 2 := Fin.ext h2
    rw [step_deliver hin hp, deliver_port_read, runInput_of_ok (i := .dmaStatus) rfl,
      ← takeInput_busy rest s, ← selectLanes_statusWord n]
    rfl
  · rw [step_deliver hin hp, deliver_port_read, runInput_of_error (decodeInput_writeOnly sel h2)]
    rfl

/-- An access inside the frame buffer or the tile source is the host agent's access of the word that holds its offset. -/
theorem step_memory_by_address {s : State} {rest : List Input} (n : Width) (v : Word)
    (hp : s.ch1.romPointer.toNat < 0x2000) (off : Nat) :
    (off < Config.launch.fbBytes →
      (s.inputs = .bus (.read (Config.launch.addrMap .frameBuffer + off) n) :: rest →
        step s = step { s with inputs := .mem (.fbRead (off / 2) (lanesAt n off)) :: rest }) ∧
      (s.inputs = .bus (.write (Config.launch.addrMap .frameBuffer + off) n v) :: rest →
        step s = step { s with inputs := .mem (.fbWrite (off / 2) (lanesAt n off) (laneData n v)) :: rest })) ∧
    (off < 2 * Config.launch.tileSrcWords →
      (s.inputs = .bus (.read (Config.launch.addrMap .tileSource + off) n) :: rest →
        step s = step { s with inputs := .mem (.tsRead (off / 2) (lanesAt n off)) :: rest }) ∧
      (s.inputs = .bus (.write (Config.launch.addrMap .tileSource + off) n v) :: rest →
        step s = step { s with inputs := .mem (.tsWrite (off / 2) (lanesAt n off) (laneData n v)) :: rest })) :=
  ⟨fun h => ⟨fun hin => step_eq_step_of_deliver hin hp (deliver_read (i := .frameBuffer) h n _),
      fun hin => step_eq_step_of_deliver hin hp (deliver_write (i := .frameBuffer) h n v _)⟩,
    fun h => ⟨fun hin => step_eq_step_of_deliver hin hp (deliver_read (i := .tileSource) h n _),
      fun hin => step_eq_step_of_deliver hin hp (deliver_write (i := .tileSource) h n v _)⟩⟩

/-- Settles O60, from where `ADDR_MAP` leads: to a port, to a memory, or nowhere. -/
theorem accessByAddressIsTheOperationItNames : Obligations.AccessByAddressIsTheOperationItNames := by
  unfold Obligations.AccessByAddressIsTheOperationItNames
  intro s rest n v hp
  refine ⟨fun sel => step_port_by_address n v hp sel, fun off l d hld => ?_,
    fun addr b hb hin => ⟨fun hout => ?_, fun r hr => ?_⟩⟩
  · obtain ⟨rfl, rfl⟩ := lanes_and_data hld
    exact step_memory_by_address n v hp off
  · obtain ⟨hread, hwrite⟩ := deliver_outside hout n v (takeInput rest s)
    rw [step_deliver hin hp]
    obtain rfl | rfl := hb
    · exact hread
    · exact hwrite
  · rw [step_deliver hin hp] at hr
    exact deliver_bus_refusal hr

end Sys2Proof.Machine
end

