-- ==== Sys2Proof/Proofs/State.lean ====
section
/-! PROOFS. The statements of 10_state.md: what each operation of the block writes and leaves alone (R22 to R29), and the
invariant that every step keeps (R21 to R37). -/

namespace Sys2Proof.Machine

/-! ## What an operation writes -/

/-- The state differs in the completion event and `busy` alone, with the outputs that go with them. -/
def SameButCompletion (s t : State) : Prop := t = { s with busy := t.busy, pending := t.pending, outputs := t.outputs }

/-- The state differs in the DMA state and the frame buffer alone, with the outputs. -/
def SameButTrigger (s t : State) : Prop :=
  t = { s with
    activeBank := t.activeBank, busy := t.busy, pixelsProcessed := t.pixelsProcessed, pending := t.pending
    fb := t.fb, cnt := t.cnt, outputs := t.outputs }

/-- The state differs in the channels, the divider and the lines alone, with the outputs and the answer. -/
def SameButSequencer (s t : State) : Prop :=
  t = { s with
    ch0 := t.ch0, ch1 := t.ch1, clockToggle := t.clockToggle, prevClockToggle := t.prevClockToggle
    outReset0 := t.outReset0, outReset1 := t.outReset1, outVck1 := t.outVck1, outputs := t.outputs, reply := t.reply }

theorem dmaStop_frame (s : State) : SameButCompletion s (cancelPending { s with busy := false }) := by
  rw [cancelPending_eq]; rfl

@[simp] theorem mem_cancelPending (s : State) (sp : Space) : (cancelPending s).mem sp = s.mem sp := by
  rw [cancelPending_eq]; rfl

@[simp] theorem mem_resetRegisters (s : State) (sp : Space) : (resetRegisters s).mem sp = s.mem sp := rfl

theorem trigger_frame (L : Launch) (s : State) : SameButTrigger s (trigger L s) := by
  rw [trigger_eq]
  generalize replay L s.activeBank { s with activeBank := otherBank s.activeBank } = r
  dsimp only
  rw [settleBusy_eq]
  split <;> rfl

theorem advance_frame (L : Launch) (c : Chan) (s : State) : SameButSequencer s (advance L c s) := by
  rw [advance_eq]
  cases c <;> rfl

theorem clockLevel_frame (L : Launch) (l : Bool) (s : State) : SameButSequencer s (clockLevel L l s) := by
  obtain hl | ⟨hp, rfl, hc⟩ | ⟨hp, rfl, hc⟩ := clockLevel_cases l s
  · rw [clockLevel_level L hl]; rfl
  · rw [clockLevel_pulse L hp hc]; rfl
  · rw [clockLevel_advance L hp hc, advancePhase_eq]
    split <;> rfl

/-- What an instruction may write in going from `s` to `t`, by its kind (R22 to R29): the drawing, the DMA state, the
completion event, the active bank, or the sequencer. -/
inductive Writes (s : State) : Instr → State → Prop where
  | command {i t} (hc : isCommand i = true) (h : SameButDrawing s t) : Writes s i t
  | trigger {t} (h : SameButTrigger s t) : Writes s .dmaStart t
  | stop {t} (h : SameButCompletion s t) : Writes s .dmaStop t
  | completion {t} (h : SameButCompletion s t) : Writes s .timerFire t
  | reset {t} (hm : ∀ sp, t.mem sp = s.mem sp) : Writes s .reset t
  | window {j be d} (m : Memory) : Writes s (.winWrite j be d) (s.withMem (.bank s.activeBank) m)
  | sequencer {i t} (h : SameButSequencer s t) : Writes s i t

/-- Every instruction that answers a next state writes what its kind may write. -/
theorem exec_writes {i : Instr} {s t : State} (h : exec i s = .next t) : Writes s i t := by
  cases i
  case nop => cases h; exact .command rfl (.refl s)
  case tileO => cases h; exact .command rfl (tileDraw_frame ..)
  case tileT => cases h; exact .command rfl (tileDraw_frame ..)
  case fillPix => cases h; exact .command rfl (fill_frame ..)
  case fillPal => cases h; exact .command rfl (fill_frame ..)
  case dmaStart =>
    obtain rfl : trigger Config.launch s = t := Host.Outcome.next.inj h
    exact .trigger (trigger_frame ..)
  case dmaStop => cases h; exact .stop (dmaStop_frame s)
  case timerFire =>
    simp only [exec, execTimerFire] at h
    split at h
    · cases h
    · cases h; exact .completion rfl
  case reset => cases h; exact .reset fun sp => by simp
  case winWrite j be d =>
    simp only [exec, execWinWrite] at h
    split at h
    · cases h
      obtain ⟨m, e⟩ := writeLanes_frame (.bank s.activeBank) j.toNat (be.getLsbD 1) (be.getLsbD 0) d s
      rw [e]; exact .window m
    · cases h
  case gen0Vck => cases h; exact .sequencer (advance_frame ..)
  case ctcTo => cases h; exact .sequencer (clockLevel_frame ..)
  all_goals cases h; exact .sequencer rfl

/-- Settles O15, by what each instruction may write. -/
theorem dmaStateIsWrittenOnlyByItsOperations : Obligations.DmaStateIsWrittenOnlyByItsOperations := by
  unfold Obligations.DmaStateIsWrittenOnlyByItsOperations
  intro i s t h hstart hreset
  cases exec_writes h with
  | command _ hd => rw [hd]; exact ⟨rfl, rfl, fun _ _ => ⟨rfl, rfl⟩⟩
  | trigger _ => exact absurd rfl hstart
  | stop hc => rw [hc]; exact ⟨rfl, rfl, fun hstop _ => absurd rfl hstop⟩
  | completion hc => rw [hc]; exact ⟨rfl, rfl, fun _ htimer => absurd rfl htimer⟩
  | reset _ => exact absurd rfl hreset
  | window m => simp
  | sequencer hq => rw [hq]; exact ⟨rfl, rfl, fun _ _ => ⟨rfl, rfl⟩⟩

/-- No instruction but a window write changes a bank (R26). -/
theorem Writes.bank {i : Instr} {s t : State} (h : Writes s i t) (hi : ∀ j be d, i ≠ .winWrite j be d) (b : BankId) :
    t.mem (.bank b) = s.mem (.bank b) := by
  cases h with
  | command _ hd => exact hd.mem (by simp)
  | trigger ht => rw [ht]; cases b <;> rfl
  | stop hc => rw [hc]; cases b <;> rfl
  | completion hc => rw [hc]; cases b <;> rfl
  | reset hm => exact hm _
  | window m => exact absurd rfl (hi _ _ _)
  | sequencer hq => rw [hq]; cases b <;> rfl

/-- Settles O16: a window write changes the active bank, anything else no bank. -/
theorem banksAreWrittenOnlyThroughTheWindow : Obligations.BanksAreWrittenOnlyThroughTheWindow := by
  unfold Obligations.BanksAreWrittenOnlyThroughTheWindow
  intro i s t h
  have hw := exec_writes h
  refine ⟨?_, fun hi => ⟨hw.bank hi .bank0, hw.bank hi .bank1⟩⟩
  by_cases hi : ∀ j be d, i ≠ .winWrite j be d
  · exact hw.bank hi _
  · push Not at hi
    obtain ⟨j, be, d, rfl⟩ := hi
    cases hw with
    | command hc _ => cases hc
    | window m => simp [otherBank_ne]
    | sequencer hq => rw [hq]; cases s.activeBank <;> rfl

/-- Settles O17, by what each instruction may write. -/
theorem tileSourceAndFrameBufferWriters : Obligations.TileSourceAndFrameBufferWriters := by
  unfold Obligations.TileSourceAndFrameBufferWriters
  intro i s t h
  cases exec_writes h with
  | command hc hd => exact ⟨hd.ts, fun hc' _ => by simp [hc] at hc'⟩
  | trigger ht => rw [ht]; exact ⟨rfl, fun _ hstart => absurd rfl hstart⟩
  | stop hc => rw [hc]; exact ⟨rfl, fun _ _ => rfl⟩
  | completion hc => rw [hc]; exact ⟨rfl, fun _ _ => rfl⟩
  | reset hm => exact ⟨hm .tileSource, fun _ _ => hm .frameBuffer⟩
  | window m => cases s.activeBank <;> exact ⟨rfl, fun _ _ => rfl⟩
  | sequencer hq => rw [hq]; exact ⟨rfl, fun _ _ => rfl⟩

/-! ## The bank a trigger opens -/

theorem settleBusy_withMem (L : Launch) (n : BitVec 32) (s : State) (sp : Space) (m : Memory) :
    settleBusy L n (s.withMem sp m) = (settleBusy L n s).withMem sp m := by
  simp only [settleBusy_eq]
  split <;> rcases sp with (_ | _) | _ | _ <;> rfl

/-- With other contents in the bank it opens, a trigger does the same and leaves them there (R27). -/
theorem trigger_withMem_otherBank (L : Launch) (s : State) (m : Memory) :
    trigger L (s.withMem (.bank (otherBank s.activeBank)) m) =
      (trigger L s).withMem (.bank (otherBank s.activeBank)) m := by
  have hr : replay L s.activeBank
        { s.withMem (.bank (otherBank s.activeBank)) m with activeBank := otherBank s.activeBank } =
      drawnOver { s.withMem (.bank (otherBank s.activeBank)) m with activeBank := otherBank s.activeBank }
        (replay L s.activeBank { s with activeBank := otherBank s.activeBank }) := by
    cases s.activeBank <;> exact replay_over rfl rfl rfl
  rw [trigger_eq, trigger_eq, withMem_activeBank, hr]
  generalize replay L s.activeBank { s with activeBank := otherBank s.activeBank } = r
  dsimp only [drawnOver]
  rw [← settleBusy_withMem]
  cases s.activeBank <;> rfl

/-- Settles O35: the trigger is total, and the bank it opens has no part in it. -/
theorem replayNeverReadsTheBankItOpens : Obligations.ReplayNeverReadsTheBankItOpens := by
  unfold Obligations.ReplayNeverReadsTheBankItOpens
  intro s m
  exact ⟨trigger Config.launch s, rfl, congrArg Host.Outcome.next (trigger_withMem_otherBank ..)⟩

/-! ## The invariant

What a state names with `{ s with … }` decides which fields of the invariant there are to show; the others are those of
`s`. -/

theorem Inv.memoriesWithin {s : State} (h : Inv s) : MemoriesWithin Config.launch s := h.memories

/-- The invariant does not speak of the outputs, the answer and the inputs. -/
theorem Inv.withIO {s : State} (h : Inv s) (o : List Output) (r : Option Word) (q : List Input) :
    Inv { s with outputs := o, reply := r, inputs := q } := { h with }

/-- A write of lanes of another memory than the tile source, inside it, keeps the invariant. -/
theorem Inv.writeLanes {s : State} (h : Inv s) {sp : Space} (hsp : sp ≠ .tileSource) {i : Nat} (hi lo : Bool) (d : Word)
    (ha : 2 * i + 1 < spaceBytes Config.launch sp) : Inv (writeLanes sp i hi lo d s) := by
  have hm := h.memoriesWithin.writeLanes hi lo d ha
  obtain ⟨m, e⟩ := writeLanes_frame sp i hi lo d s
  rw [e] at hm ⊢
  rcases sp with (_ | _) | _ | _
  case tileSource => exact absurd rfl hsp
  all_goals exact { h with memories := hm }

/-- A write of the tile source keeps the invariant. -/
theorem Inv.tsWrite {s : State} (h : Inv s) (i : Nat) (hi lo : Bool) (d : Word) :
    Inv (tsWrite Config.launch i hi lo d s) := by
  have hm := h.memoriesWithin.tsWrite Config.launch_allowed i hi lo d
  have hr := tsWrite_keeps_romUnlisted h.tileRomUnlisted i hi lo d
  obtain ⟨m, e⟩ : ∃ m, Machine.tsWrite Config.launch i hi lo d s = s.withMem .tileSource m := by
    obtain ⟨-, e⟩ | ⟨-, e⟩ := tsWrite_cases Config.launch i hi lo d s
    · rw [e]; exact writeLanes_frame ..
    · rw [e]; exact ⟨s.ts, rfl⟩
  rw [e] at hm hr ⊢
  exact { h with memories := hm, tileRomUnlisted := hr }

/-- A step of the host agent keeps the invariant. -/
theorem Inv.hostAccess {s t : State} {a : HostAccess} (h : Inv s) (ht : hostAccess Config.launch a s = .next t) :
    Inv t := by
  obtain ⟨v, rfl⟩ | ⟨p, hi, lo, d, rfl⟩ | ⟨i, hi, lo, d, rfl⟩ := hostAccess_cases ht
  · exact h.withIO s.outputs (some v) s.inputs
  · obtain ⟨n, hn, e⟩ := Config.launch_allowed.fbWords
    have hp : p % (Config.launch.fbBytes / 2) < Config.launch.fbBytes / 2 := Nat.mod_lt p (by omega)
    exact h.writeLanes (by simp) hi lo d (by simp only [spaceBytes]; omega)
  · exact h.tsWrite i hi lo d

/-- With `busy` and the pending event cleared together, the invariant holds on (R23, R25). -/
theorem Inv.idle {s : State} (h : Inv s) : Inv { s with busy := false, pending := none } :=
  { h with busyPending := rfl, deadline := by simp }

/-- A window write keeps the invariant: its word lies in the bank. -/
theorem Inv.winWrite {s t : State} {i : BitVec 13} {be : BitVec 2} {d : Word} (h : Inv s)
    (ht : execWinWrite i be d s = .next t) : Inv t := by
  unfold execWinWrite at ht
  split at ht
  · cases ht
    have := i.isLt
    exact h.writeLanes (by simp) _ _ d (by simp only [spaceBytes]; omega)
  · cases ht

/-- A trigger keeps the invariant: the deadline is that of the count it records. -/
theorem Inv.trigger {s : State} (h : Inv s) : Inv (trigger Config.launch s) := by
  have hm := h.memoriesWithin.trigger Config.launch_allowed
  rw [trigger_eq] at hm ⊢
  have hc := (replay_cnt Config.launch s.activeBank { s with activeBank := otherBank s.activeBank }).2
  generalize replay Config.launch s.activeBank { s with activeBank := otherBank s.activeBank } = r at hm hc
  dsimp only at hm hc ⊢
  rw [settleBusy_eq] at hm ⊢
  split
  · next hz =>
    rw [if_pos hz] at hm
    exact { h with memories := hm, busyPending := rfl, deadline := by simp, countBound := hc, noRunningCount := rfl }
  · next hz =>
    rw [if_neg hz] at hm
    exact { h with
      memories := hm, busyPending := rfl, countBound := hc, noRunningCount := rfl
      deadline := by rintro _ ⟨⟩; exact ⟨rfl, hz⟩ }

/-- RESET puts every register of the invariant at its reset value. -/
theorem Inv.reset {s t : State} (h : Inv s) (ht : execReset s = .next t) : Inv t := by
  cases ht
  rw [cancelPending_eq]
  exact {
    memories := h.memories, tileRomUnlisted := h.tileRomUnlisted, noRunningCount := h.noRunningCount
    busyPending := rfl, deadline := by simp [resetRegisters], countBound := by simp [resetRegisters]
    pointer1 := by simp [resetRegisters, Channel.reset], resetLine0 := rfl, resetLine1 := rfl, clockLine := fun _ => rfl }

/-- A channel that an advance brings to the loop address is not held: it stood below it. -/
theorem Channel.not_held_of_loop {ch : Channel} (h : ch.romPointer.toNat < 0x2000)
    (hloop : ch.advanced.romPointer = ch1Loop) : ch.held = false := by
  by_contra hheld
  rw [Channel.advanced_of_held (by simpa using hheld)] at hloop
  rw [hloop] at h
  exact absurd h (by decide)

/-- The channel-1 clock keeps the invariant: it raises its line as the divider's state falls, and a pointer that reaches
the loop address goes back to 0 (R208 to R211). -/
theorem Inv.clockLevel {s : State} (h : Inv s) (l : Bool) : Inv (clockLevel Config.launch l s) := by
  obtain hl | ⟨hp, rfl, hc⟩ | ⟨hp, rfl, hc⟩ := clockLevel_cases l s
  · rw [clockLevel_level _ hl]
    exact { h with }
  · rw [clockLevel_pulse _ hp hc]
    exact { h with clockLine := fun _ => rfl }
  · rw [clockLevel_advance _ hp hc, advancePhase_eq]
    split
    · next hloop =>
      have hheld : s.ch1.advanced.held = false :=
        (Channel.advanced_held _).trans (Channel.not_held_of_loop h.pointer1 hloop)
      exact { h with pointer1 := by simp, resetLine1 := hheld.symm, clockLine := by rintro ⟨⟩ }
    · next hloop =>
      exact { h with
        pointer1 := (Channel.advanced_le h.pointer1).resolve_right hloop
        resetLine1 := h.resetLine1.trans (Channel.advanced_held _).symm, clockLine := by rintro ⟨⟩ }

/-- Every event of the block keeps the invariant. -/
theorem Inv.exec {i : Instr} {s t : State} (hi : isCommand i = false) (h : Inv s) (ht : exec i s = .next t) : Inv t := by
  cases i
  case nop => cases hi
  case tileO => cases hi
  case tileT => cases hi
  case fillPix => cases hi
  case fillPal => cases hi
  case dmaStart =>
    obtain rfl : Machine.trigger Config.launch s = t := Host.Outcome.next.inj ht
    exact h.trigger
  case dmaStop => cases ht; rw [cancelPending_eq]; exact h.idle.withIO ..
  case dmaStatus => cases ht; exact h.withIO s.outputs _ s.inputs
  case adpcm0Start => cases ht; exact { h with resetLine0 := rfl }
  case adpcm0Stop => cases ht; exact { h with resetLine0 := rfl }
  case adpcm0AddrLo => cases ht; exact { h with }
  case adpcm0AddrHi => cases ht; exact { h with }
  case adpcm1Start => cases ht; exact { h with resetLine1 := rfl }
  case adpcm1Stop => cases ht; exact { h with resetLine1 := rfl }
  case winWrite => exact h.winWrite ht
  case winRead => cases ht; exact h.withIO s.outputs _ s.inputs
  case timerFire =>
    simp only [Machine.exec, execTimerFire] at ht
    split at ht
    · cases ht
    · cases ht; exact h.idle
  case gen0Vck =>
    cases ht
    rw [advance_eq]
    exact { h with resetLine0 := h.resetLine0.trans (Channel.advanced_held _).symm }
  case ctcTo l => cases ht; exact h.clockLevel l
  case reset => exact h.reset ht

/-- Delivering an input keeps the invariant. -/
theorem Inv.deliver {e : Input} {s t : State} (h : Inv s) (ht : deliver e s = .next t) : Inv t := by
  obtain ⟨i, u, hi, hu, e⟩ | ⟨a, ha⟩ | rfl := deliver_next ht
  · rw [e]; exact (h.exec hi hu).withIO u.outputs t.reply u.inputs
  · exact h.hostAccess ha
  · exact h

/-- Settles O13: taking the input keeps the invariant, and so does delivering it. -/
theorem everyStepKeepsTheInvariant : Obligations.EveryStepKeepsTheInvariant := by
  unfold Obligations.EveryStepKeepsTheInvariant
  intro s t h ht
  obtain ⟨-, rfl⟩ | ⟨e, rest, -, -, hd⟩ := step_next ht
  · exact h.withIO [] none s.inputs
  · exact (h.withIO [] none rest : Inv (takeInput rest s)).deliver hd

end Sys2Proof.Machine
end

