-- ==== Sys2Proof/Proofs/Memory.lean ====
section
/-! PROOFS. The statements of 20_memory.md: a memory is canonical data (R73), the frame buffer and the tile source wrap (R64
to R68), what a command can spell stays in bounds (R68, R166), and the window by address (R61, R129, R130). -/

namespace Sys2Proof.Machine

/-! ## A memory as data -/

/-- Looking an address up in a canonical memory finds exactly the byte the list holds for it. -/
theorem Memory.mem_iff_load? {m : Memory} (h : m.wf) (a : Nat) (v : Byte) : (a, v) ∈ m ↔ m.load? a = some v := by
  induction m with
  | nil => simp [Memory.load?]
  | cons c m ih =>
    obtain ⟨b, w⟩ := c
    obtain ⟨hb, hm⟩ := List.pairwise_cons.1 h
    by_cases e : b = a
    · subst e
      have hnot : (b, v) ∉ m := fun hv => Nat.lt_irrefl b (hb (b, v) hv)
      simp [Memory.load?, hnot, eq_comm]
    · simp [Memory.load?, e, Ne.symm e, ih hm]

/-- Canonical memories with the same bytes are the same list: a list in strictly rising order is fixed by its members. -/
theorem Memory.eq_of_load?_eq {m n : Memory} (hm : m.wf) (hn : n.wf) (h : ∀ a, m.load? a = n.load? a) : m = n := by
  have : Std.Irrefl fun a b : Host.Cell => a.1 < b.1 := ⟨fun _ => Nat.lt_irrefl _⟩
  have : Std.Antisymm fun a b : Host.Cell => a.1 < b.1 := ⟨fun _ _ hab hba => absurd hab hba.asymm⟩
  exact hm.eq_of_mem_iff hn fun ⟨a, v⟩ => by rw [Memory.mem_iff_load? hm, Memory.mem_iff_load? hn, h]

/-- Settles O31, by the laws of a store and by extensionality. -/
theorem memoryIsCanonicalData : Obligations.MemoryIsCanonicalData := by
  unfold Obligations.MemoryIsCanonicalData
  refine ⟨fun m a v h => ⟨Memory.store_wf a v h, ?_, fun b hb => ?_⟩, fun m n => Memory.eq_of_load?_eq⟩
  · rw [Memory.load?_store, if_pos rfl]
  · rw [Memory.load?_store, if_neg hb]

/-! ## The tile source -/

/-- A read of the tile source depends on the word its index names. -/
theorem tsRead_congr_index {L : Launch} {i j : Nat} (h : i ≡ j [MOD L.tileSrcWords]) (s : State) :
    tsRead L s i = tsRead L s j := by
  have e : tsWordIndex L i = tsWordIndex L j := h
  cases hr : L.tileRom (tsWordIndex L i) with
  | none => rw [tsRead_ram hr, tsRead_ram (e ▸ hr), e]
  | some w => rw [tsRead_rom hr, tsRead_rom (e ▸ hr)]

/-- A source of at most 2^17 words divides 2^17, the words of the 2^13 tiles a command can name. -/
theorem tileSrcWords_dvd {L : Launch} (hL : L.Allowed) (h : L.tileSrcWords ≤ 2 ^ 17) : L.tileSrcWords ∣ 2 ^ 17 := by
  obtain ⟨k, -, e⟩ := hL.tileSrcWords
  rw [e] at h ⊢
  exact (Nat.pow_dvd_pow_iff_pow_le_pow (by decide)).2 h

/-- Tile numbers 2^13 apart are 2^17 words apart. -/
theorem tileWord_modEq (code i : Nat) : 16 * code + i ≡ 16 * (code % 2 ^ 13) + i [MOD 2 ^ 17] :=
  (Nat.ModEq.mul_left' 16 (Nat.mod_modEq code (2 ^ 13)).symm).add_right i

/-- Settles O28: each read is of the word its index names modulo the size. -/
theorem tileSourceIndexWraps : Obligations.TileSourceIndexWraps := by
  unfold Obligations.TileSourceIndexWraps
  intro L s hL
  refine ⟨fun i hram => tsRead_ram hram s, fun i w hrom => tsRead_rom hrom s,
    fun i => tsRead_congr_index Nat.add_modEq_right s, fun hle code i _ => ?_⟩
  exact tsRead_congr_index ((tileWord_modEq code i).of_dvd (tileSrcWords_dvd hL hle)) s

/-! ## The frame buffer -/

/-- A buffer of at least one row holds whole rows. -/
theorem row_dvd_fbBytes {L : Launch} (hL : L.Allowed) (h : 1024 ≤ L.fbBytes) : 1024 ∣ L.fbBytes := by
  obtain ⟨k, -, e⟩ := hL.fbBytes
  rw [e] at h ⊢
  exact (Nat.pow_dvd_pow_iff_pow_le_pow (x := 2) (k := 10) (by decide)).2 h

/-- A column past 511 goes on in the next row. -/
theorem fbAddr_carry (L : Launch) (Y X : Nat) : fbAddr L Y X = fbAddr L (Y + X / 512) (X % 512) := by
  have e : (Y + X / 512) * 512 + X % 512 = Y * 512 + X := by omega
  unfold fbAddr
  rw [e]

/-- The rows wrap after as many as the buffer holds. -/
theorem fbAddr_add_rows {L : Launch} (h : 1024 ∣ L.fbBytes) (Y X : Nat) :
    fbAddr L (Y + L.fbBytes / 1024) X = fbAddr L Y X := by
  have e : ((Y + L.fbBytes / 1024) * 512 + X) * 2 = (Y * 512 + X) * 2 + L.fbBytes := by omega
  unfold fbAddr
  rw [e, Nat.add_mod_right]

/-- Settles O29: an address is a doubled word index modulo the size, and a size of whole rows wraps row by row. -/
theorem frameBufferAddressWraps : Obligations.FrameBufferAddressWraps := by
  unfold Obligations.FrameBufferAddressWraps
  intro L Y X hL
  exact ⟨fbAddr_even hL Y X, fbAddr_lt hL Y X, fbAddr_carry L Y X, fun h => fbAddr_add_rows (row_dvd_fbBytes hL h) Y X⟩

/-- The word a pixel's two bytes form: its palette byte above its pixel byte. -/
theorem readWord_fbAddr {L : Launch} (hL : L.Allowed) (s : State) (Y X : Nat) :
    readWord L s .frameBuffer (fbAddr L Y X / 2) = wordOf (paletteByte L s Y X) (pixelByte L s Y X) := by
  have e : 2 * (fbAddr L Y X / 2) = fbAddr L Y X := by have := fbAddr_even hL Y X; omega
  unfold readWord
  rw [e]
  rfl

/-- A write of the pixel plane changes its one byte. -/
theorem readByte_fbWritePix (L : Launch) (Y X : Nat) (v : Byte) (s : State) (sp : Space) (a : Nat) :
    readByte L (fbWritePix L Y X v s) sp a =
      if sp = .frameBuffer ∧ a = fbAddr L Y X + 1 then v else readByte L s sp a :=
  readByte_writeByte L _ _ _ _ v s

/-- A write of the palette plane changes its one byte. -/
theorem readByte_fbWritePal (L : Launch) (Y X : Nat) (v : Byte) (s : State) (sp : Space) (a : Nat) :
    readByte L (fbWritePal L Y X v s) sp a =
      if sp = .frameBuffer ∧ a = fbAddr L Y X then v else readByte L s sp a :=
  readByte_writeByte L _ _ _ _ v s

/-- Settles O30, from what each primitive does to every byte. -/
theorem frameBufferPrimitivesChangeOneByte : Obligations.FrameBufferPrimitivesChangeOneByte := by
  unfold Obligations.FrameBufferPrimitivesChangeOneByte
  intro L s Y X v hL
  refine ⟨rfl, ?_, ?_, ?_, fun sp a h => ?_, fun sp a h => ?_⟩
  · rw [fbAddr_even hL, Nat.mul_div_cancel_left _ (by decide)]
  · rw [readWord_fbAddr hL]
    simp [paletteByte, pixelByte, readByte_fbWritePix]
  · rw [readWord_fbAddr hL]
    simp [paletteByte, pixelByte, readByte_fbWritePal]
  · rw [readByte_fbWritePix, if_neg h]
  · rw [readByte_fbWritePal, if_neg h]

/-! ## The bounds of a command -/

/-- The pixels of a block along one axis lie below 767 = 511 + 8 * 32. -/
theorem axis_pixel_le (c : BitVec 9) (enc : BitVec 5) {j q : Nat} (hj : j < tilesOf enc) (hq : q < 8) :
    c.toNat + 8 * j + q ≤ 766 := by
  have hc := c.isLt
  have he := enc.isLt
  unfold tilesOf at hj
  omega

/-- The last tile of the largest block is the 1024th from its first. -/
theorem tile_offset_le (wenc henc : BitVec 5) {j k : Nat} (hj : j < tilesOf wenc) (hk : k < tilesOf henc) :
    j * tilesOf henc + k ≤ 1023 := by
  have hw := wenc.isLt
  have hh := henc.isLt
  unfold tilesOf at *
  have := Nat.mul_le_mul (show j ≤ 31 by omega) (show henc.toNat + 1 ≤ 32 by omega)
  omega

/-- A base pixel leaves the low four bits to the source value, so the two join without a carry (R95, R164). -/
theorem basePix_or (col : Byte) (pix : Nibble) : basePix col ||| pix.setWidth 8 = basePix col + pix.setWidth 8 := by
  refine (BitVec.add_eq_or_of_and_eq_zero _ _ ?_).symm
  unfold basePix
  ext i hi
  by_cases h : i < 4
  · simp [h]
  · simp [BitVec.getLsbD_of_ge pix i (by omega)]

/-- Settles O5, from the bound along each axis and the bound on the tiles of a block. -/
theorem commandArithmeticStaysInBounds : Obligations.CommandArithmeticStaysInBounds := by
  unfold Obligations.CommandArithmeticStaysInBounds
  intro code x wenc y henc col pix j k r q hj hk hr hq
  have hY : (blockOf x wenc y henc).y + 8 * k + r ≤ 766 := axis_pixel_le y henc hk hr
  have hX : (blockOf x wenc y henc).x + 8 * j + q ≤ 766 := axis_pixel_le x wenc hj hq
  have hT : j * (blockOf x wenc y henc).h + k ≤ 1023 := tile_offset_le wenc henc hj hk
  have hcode := code.isLt
  exact ⟨hY, hX, by omega, by omega, basePix_or col pix⟩

/-! ## The window by address -/

theorem windowIndex_toNat {off : Nat} (h : off < 0x4000) : (windowIndex off).toNat = off / 2 := by
  rw [windowIndex, BitVec.toNat_ofNat, Nat.mod_eq_of_lt (by omega)]

/-- The enable of some lanes enables those (R61, R105). -/
theorem enableOf_getLsbD (l : Lanes) :
    (enableOf l).getLsbD 1 = lanesHigh l ∧ (enableOf l).getLsbD 0 = lanesLow l := by
  cases l <;> decide

/-- Decoding a window write's tuple gives its operands back. -/
theorem decodeInput_winWrite (i : BitVec 13) (l : Lanes) (d : Word) :
    decodeInput (.winWrite (encodeTuple i (enableOf l) d)) = .ok (.winWrite i (enableOf l) d) := by
  simp [decodeInput, decodeWinWrite, tupleIndex_encodeTuple, tupleEnable_encodeTuple, tupleData_encodeTuple,
    byteEnabled_enableOf]

theorem exec_winWrite_enableOf (i : BitVec 13) (l : Lanes) (d : Word) (s : State) :
    exec (.winWrite i (enableOf l) d) s =
      .next (writeLanes (.bank s.activeBank) i.toNat (lanesHigh l) (lanesLow l) d s) := by
  obtain ⟨hhigh, hlow⟩ := enableOf_getLsbD l
  simp only [exec, execWinWrite, byteEnabled_enableOf, if_true, hhigh, hlow]

/-- A write of a bank's lanes is a write of the banks alone. -/
theorem writeLanes_bank_frame (b : BankId) (i : Nat) (hi lo : Bool) (d : Word) (s : State) :
    writeLanes (.bank b) i hi lo d s =
      { s with bank0 := (writeLanes (.bank b) i hi lo d s).bank0, bank1 := (writeLanes (.bank b) i hi lo d s).bank1 } := by
  obtain ⟨m, e⟩ := writeLanes_frame (.bank b) i hi lo d s
  rw [e]
  cases b <;> rfl

/-- A write of lanes leaves the bytes of every other word. -/
theorem readByte_writeLanes_other {L : Launch} {sp sp' : Space} {i a : Nat} (h : ¬ (sp' = sp ∧ a / 2 = i)) (hi lo : Bool)
    (d : Word) (s : State) : readByte L (writeLanes sp i hi lo d s) sp' a = readByte L s sp' a := by
  rw [readByte_writeLanes, if_neg, if_neg]
  · rintro ⟨e, -, ha⟩
    exact h ⟨e, by omega⟩
  · rintro ⟨e, -, ha⟩
    exact h ⟨e, by omega⟩

section
variable {s : State} {rest : List Input} {off : Nat} (hoff : off < 0x4000) (hp : s.ch1.romPointer.toNat < 0x2000)
include hoff hp

/-- A read in the window answers the lanes of its word of the active bank. -/
theorem step_window_read (n : Width)
    (hin : s.inputs = .bus (.read (Config.launch.addrMap .window + off) n) :: rest) :
    step s = .next { s with
      inputs := rest, outputs := [],
      reply := some (selectLanes (lanesAt n off) (bankWord Config.launch s s.activeBank (off / 2))) } := by
  calc step s = runRouted (routeRead n (.window, off)) (takeInput rest s) :=
        (step_deliver hin hp).trans (deliver_read (i := .window) hoff n _)
    _ = .next (answer (selectLanes (lanesAt n off)
          (bankWord Config.launch (takeInput rest s) s.activeBank (windowIndex off).toNat)) (takeInput rest s)) := rfl
    _ = _ := by rw [windowIndex_toNat hoff, bankWord_congr (mem_takeInput rest s _)]; rfl

/-- A write in the window stores the lanes of its word of the active bank. -/
theorem step_window_write (n : Width) (v : Word)
    (hin : s.inputs = .bus (.write (Config.launch.addrMap .window + off) n v) :: rest) :
    step s = .next (writeLanes (.bank s.activeBank) (off / 2) (lanesHigh (lanesAt n off)) (lanesLow (lanesAt n off))
      (laneData n v) (takeInput rest s)) := by
  calc step s = runRouted (routeWrite n v (.window, off)) (takeInput rest s) :=
        (step_deliver hin hp).trans (deliver_write (i := .window) hoff n v _)
    _ = runInput (.winWrite (encodeTuple (windowIndex off) (enableOf (lanesAt n off)) (laneData n v)))
          (takeInput rest s) := keepLanes_both _
    _ = _ := by rw [runInput_of_ok (decodeInput_winWrite ..), exec_winWrite_enableOf, windowIndex_toNat hoff]; rfl

/-- What a window write leaves: its lanes in its word of the active bank, and every other byte and register as it was. -/
theorem step_window_write_effect (n : Width) (v : Word)
    (hin : s.inputs = .bus (.write (Config.launch.addrMap .window + off) n v) :: rest) :
    ∃ t, step s = .next t ∧
      t = { s with inputs := rest, outputs := [], reply := none, bank0 := t.bank0, bank1 := t.bank1 } ∧
      bankWord Config.launch t s.activeBank (off / 2) =
        wordOf
          (if lanesHigh (lanesAt n off) then hiByte (laneData n v)
            else hiByte (bankWord Config.launch s s.activeBank (off / 2)))
          (if lanesLow (lanesAt n off) then loByte (laneData n v)
            else loByte (bankWord Config.launch s s.activeBank (off / 2))) ∧
      ∀ sp a, ¬ (sp = .bank s.activeBank ∧ a / 2 = off / 2) →
        readByte Config.launch t sp a = readByte Config.launch s sp a := by
  refine ⟨_, step_window_write hoff hp n v hin, writeLanes_bank_frame .., ?_, fun sp a h => ?_⟩
  · exact readWord_writeLanes ..
  · rw [readByte_writeLanes_other h, readByte_congr (mem_takeInput rest s sp)]

end

/-- The two bytes of a byte write's data are its byte, so either lane stores it (R105). -/
theorem bytes_laneData_byte (v : Word) : hiByte (laneData .byte v) = loByte v ∧ loByte (laneData .byte v) = loByte v :=
  ⟨hiByte_wordOf _ _, loByte_wordOf _ _⟩

/-- A byte at an even offset is on the high lane, at an odd one on the low lane (R61). -/
theorem lanesAt_byte (off : Nat) : lanesAt .byte off = if off % 2 = 0 then .high else .low := rfl

/-- Settles O59: each access reaches the lanes of its offset, of the word its offset lies in. -/
theorem windowAccessByAddressReachesItsWord : Obligations.WindowAccessByAddressReachesItsWord := by
  unfold Obligations.WindowAccessByAddressReachesItsWord
  intro s rest off v hoff hp
  refine ⟨fun hin => ?_, fun hin => step_window_read hoff hp .word hin, fun hin => ?_, fun hin => ?_⟩
  · rw [step_window_read hoff hp .byte hin]
    by_cases he : off % 2 = 0
    · simp [lanesAt_byte, he, selectLanes, hiByte]
    · simp [lanesAt_byte, he, selectLanes, loByte]
  · obtain ⟨t, hstep, hframe, hword, hother⟩ := step_window_write_effect hoff hp .byte v hin
    refine ⟨t, hstep, hframe, hword.trans ?_, hother⟩
    obtain ⟨hhigh, hlow⟩ := bytes_laneData_byte v
    rw [wordOf_eq_append, lanesAt_byte, hhigh, hlow]
    by_cases he : off % 2 = 0
    · simp only [he, if_true]; rfl
    · simp only [he, if_false]; rfl
  · obtain ⟨t, hstep, hframe, hword, hother⟩ := step_window_write_effect hoff hp .word v hin
    exact ⟨t, hstep, hframe, hword.trans (wordOf_hiByte_loByte v), hother⟩

end Sys2Proof.Machine
end

