-- ==== Sys2Proof/Proofs/Encoding.lean ====
section
/-! PROOFS. The statements of 30_encoding.md: the kinds of command and the bits they read (R96 to R99), the round trip through
the encoder (R102, R104 to R106), what spells no operation (R106, R107), and the meaning a decoded slot has (R96, R150). -/

namespace Sys2Proof.Machine

/-! ## The kinds of command -/

/-- Without `CLR` a command that is no NOP draws tiles, and `TRN` says how. -/
theorem classify_tile {a : Word} (h0 : a ≠ 0) (h : attrClr a = false) :
    classify a = if attrTrn a then .tileT else .tileO := by
  rw [classify, if_neg h0, if_pos h]
  cases attrTrn a <;> rfl

/-- With `CLR` a command fills, and `TGT` says which plane. -/
theorem classify_fill {a : Word} (h : attrClr a = true) : classify a = if attrTgt a then .fillPal else .fillPix := by
  have h0 : a ≠ 0 := by rintro rfl; cases h
  rw [classify, if_neg h0, if_neg (by simp [h])]
  cases attrTgt a <;> rfl

/-- Settles O2: the masks select the flags that tell the kinds apart. -/
theorem commandKindsMatchTheMaskTable : Obligations.CommandKindsMatchTheMaskTable := by
  unfold Obligations.CommandKindsMatchTheMaskTable
  intro attr
  have hall : attr &&& 0xFFFF = attr := BitVec.and_allOnes
  rw [hall, and_A000, and_6000]
  cases hclr : attrClr attr with
  | true =>
    have h0 : attr ≠ 0 := by rintro rfl; cases hclr
    rw [classify_fill hclr]
    cases attrTgt attr <;> cases attrTrn attr <;> simpa using h0
  | false =>
    obtain rfl | h0 := eq_or_ne attr 0
    · decide
    · rw [classify_tile h0 hclr]
      cases attrTgt attr <;> cases attrTrn attr <;> simpa using h0

/-! ## The fields a kind reads -/

/-- A tile draw reads `CODE` and `TRN` of `attr`. -/
theorem decodeCommand_tile {a : Word} (h0 : a ≠ 0) (h : attrClr a = false) (x y c : Word) :
    decodeCommand a x y c =
      if attrTrn a then
        .tileT (attrCode a) (coordField x) (countField x) (coordField y) (countField y) (colourField c)
      else .tileO (attrCode a) (coordField x) (countField x) (coordField y) (countField y) (colourField c) := by
  rw [decodeCommand, classify_tile h0 h]
  cases attrTrn a <;> rfl

/-- A fill reads `TGT` of `attr`, and no more. -/
theorem decodeCommand_fill {a : Word} (h : attrClr a = true) (x y c : Word) :
    decodeCommand a x y c =
      if attrTgt a then .fillPal (coordField x) (countField x) (coordField y) (countField y) (colourField c)
      else .fillPix (coordField x) (countField x) (coordField y) (countField y) (colourField c) := by
  rw [decodeCommand, classify_fill h]
  cases attrTgt a <;> rfl

/-- A field whose place a mask leaves out does not see the masked bits change. -/
theorem extractLsb'_xor_and {mask : Word} {start len : Nat} (h : mask.extractLsb' start len = 0#len) (w m : Word) :
    (w ^^^ (m &&& mask)).extractLsb' start len = w.extractLsb' start len := by
  rw [BitVec.extractLsb'_xor, BitVec.extractLsb'_and, h, BitVec.and_zero, BitVec.xor_zero]

/-- A flag that a mask leaves out does not see the masked bits change. -/
theorem getLsbD_xor_and {mask : Word} {i : Nat} (h : mask.getLsbD i = false) (w m : Word) :
    (w ^^^ (m &&& mask)).getLsbD i = w.getLsbD i := by
  simp [h]

theorem coordField_xor_unread (w m : Word) : coordField (w ^^^ (m &&& 0x0600)) = coordField w :=
  extractLsb'_xor_and (by decide) w m

theorem countField_xor_unread (w m : Word) : countField (w ^^^ (m &&& 0x0600)) = countField w :=
  extractLsb'_xor_and (by decide) w m

theorem colourField_xor_unread (c m : Word) : colourField (c ^^^ (m &&& 0xFF00)) = colourField c :=
  extractLsb'_xor_and (by decide) c m

theorem attrClr_eq_false_iff {a : Word} : attrClr a = false ↔ a &&& 0x2000 = 0 := by
  rw [and_2000]
  cases attrClr a <;> decide

/-- A tile draw does not read bit 14 (R98). -/
theorem decodeCommand_tile_xor {a : Word} (h : attrClr a = false) (h0 : a ≠ 0) (h1 : a ^^^ 0x4000 ≠ 0) (x y c : Word) :
    decodeCommand (a ^^^ 0x4000) x y c = decodeCommand a x y c := by
  have hcode : attrCode (a ^^^ 0x4000) = attrCode a := extractLsb'_xor_and (mask := 0x4000) (by decide) a 0x4000
  have hclr : attrClr (a ^^^ 0x4000) = attrClr a := getLsbD_xor_and (mask := 0x4000) (by decide) a 0x4000
  have htrn : attrTrn (a ^^^ 0x4000) = attrTrn a := getLsbD_xor_and (mask := 0x4000) (by decide) a 0x4000
  rw [decodeCommand_tile h1 (hclr.trans h), decodeCommand_tile h0 h, hcode, htrn]

/-- A fill reads bits 13 and 14 of `attr` alone (R98). -/
theorem decodeCommand_fill_xor {a : Word} (h : attrClr a = true) (m x y c : Word) :
    decodeCommand (a ^^^ (m &&& 0x9FFF)) x y c = decodeCommand a x y c := by
  have hclr : attrClr (a ^^^ (m &&& 0x9FFF)) = attrClr a := getLsbD_xor_and (by decide) a m
  have htgt : attrTgt (a ^^^ (m &&& 0x9FFF)) = attrTgt a := getLsbD_xor_and (by decide) a m
  rw [decodeCommand_fill (hclr.trans h), decodeCommand_fill h, htgt]

/-- Settles O3: each kind is a function of the fields it reads, and those stand still. -/
theorem unreadCommandBitsHaveNoEffect : Obligations.UnreadCommandBitsHaveNoEffect := by
  unfold Obligations.UnreadCommandBitsHaveNoEffect
  intro attr x y c m
  refine ⟨?_, ?_, ?_, fun h h0 h1 => ?_, fun h => ?_, fun _ _ _ => rfl⟩
  · simp only [decodeCommand, coordField_xor_unread, countField_xor_unread]
  · simp only [decodeCommand, coordField_xor_unread, countField_xor_unread]
  · simp only [decodeCommand, colourField_xor_unread]
  · exact decodeCommand_tile_xor (attrClr_eq_false_iff.2 h) h0 h1 x y c
  · exact decodeCommand_fill_xor (by simpa using mt attrClr_eq_false_iff.1 h) m x y c

/-- Settles O4, by running the decoder on the words. -/
theorem wordsOfTheSpecDecode : Obligations.WordsOfTheSpecDecode := by
  unfold Obligations.WordsOfTheSpecDecode
  decide

/-! ## The round trip -/

/-- `CODE` fills the low 13 bits of `attr` and no flag. -/
theorem attr_fields_setWidth (code : BitVec 13) :
    attrCode (code.setWidth 16) = code ∧ attrClr (code.setWidth 16) = false ∧ attrTrn (code.setWidth 16) = false := by
  refine ⟨?_, ?_, ?_⟩
  · unfold attrCode
    ext i hi
    simp [BitVec.getLsbD_eq_getElem, hi]
    omega
  · simp [attrClr]
  · simp [attrTrn]

/-- The encoder's `attr` of an opaque draw is no NOP, tile 0 included (R99). -/
theorem attr_fields_encodeOpaqueAttr (code : BitVec 13) :
    encodeOpaqueAttr code ≠ 0 ∧ attrCode (encodeOpaqueAttr code) = code ∧
      attrClr (encodeOpaqueAttr code) = false ∧ attrTrn (encodeOpaqueAttr code) = false := by
  obtain ⟨hcode, hclr, htrn⟩ := attr_fields_setWidth code
  obtain rfl | h0 := eq_or_ne code 0
  · decide
  · have hattr : encodeOpaqueAttr code = code.setWidth 16 := if_neg h0
    rw [hattr]
    refine ⟨fun hz => h0 ?_, hcode, hclr, htrn⟩
    rw [← hcode, hz]
    rfl

/-- The encoder's `attr` of a transparent draw: `TRN` joins `CODE` (R102). -/
theorem attr_fields_transparent (code : BitVec 13) :
    0x8000 ||| code.setWidth 16 ≠ 0 ∧ attrCode (0x8000 ||| code.setWidth 16) = code ∧
      attrClr (0x8000 ||| code.setWidth 16) = false ∧ attrTrn (0x8000 ||| code.setWidth 16) = true := by
  obtain ⟨hcode, hclr, -⟩ := attr_fields_setWidth code
  have htrn : attrTrn (0x8000 ||| code.setWidth 16) = true := by simp [attrTrn]
  refine ⟨fun hz => ?_, ?_, ?_, htrn⟩
  · rw [hz] at htrn
    cases htrn
  · calc attrCode (0x8000 ||| code.setWidth 16) = attrCode 0x8000 ||| attrCode (code.setWidth 16) :=
          BitVec.extractLsb'_or
      _ = code := by rw [hcode]; exact BitVec.zero_or
  · calc attrClr (0x8000 ||| code.setWidth 16) = (attrClr 0x8000 || attrClr (code.setWidth 16)) := BitVec.getLsbD_or
      _ = false := by rw [hclr]; rfl

section
variable (code : BitVec 13) (x : BitVec 9) (wenc : BitVec 5) (y : BitVec 9) (henc : BitVec 5) (col : Byte)

/-- A tile draw's operands are read back from the encoder's words, once `attr` holds the tile. -/
theorem decodeCommand_encoded_tile {a : Word} (h0 : a ≠ 0) (hclr : attrClr a = false) (hcode : attrCode a = code) :
    decodeCommand a (encodeAxis wenc x) (encodeAxis henc y) (col.setWidth 16) =
      if attrTrn a then .tileT code x wenc y henc col else .tileO code x wenc y henc col := by
  simp only [decodeCommand_tile h0 hclr, hcode, coordField_encodeAxis, countField_encodeAxis, colourField_setWidth]

/-- A fill's operands are read back from the encoder's words. -/
theorem decodeCommand_encoded_fill {a : Word} (hclr : attrClr a = true) :
    decodeCommand a (encodeAxis wenc x) (encodeAxis henc y) (col.setWidth 16) =
      if attrTgt a then .fillPal x wenc y henc col else .fillPix x wenc y henc col := by
  simp only [decodeCommand_fill hclr, coordField_encodeAxis, countField_encodeAxis, colourField_setWidth]

theorem decode_encode_tileO :
    decode (encode (.tileO code x wenc y henc col)) = .ok (.tileO code x wenc y henc col) := by
  obtain ⟨h0, hcode, hclr, htrn⟩ := attr_fields_encodeOpaqueAttr code
  rw [encode, decode, decodeCommand_encoded_tile code x wenc y henc col h0 hclr hcode, htrn]
  rfl

theorem decode_encode_tileT :
    decode (encode (.tileT code x wenc y henc col)) = .ok (.tileT code x wenc y henc col) := by
  obtain ⟨h0, hcode, hclr, htrn⟩ := attr_fields_transparent code
  rw [encode, decode, decodeCommand_encoded_tile code x wenc y henc col h0 hclr hcode, htrn]
  rfl

theorem decode_encode_fillPix :
    decode (encode (.fillPix x wenc y henc col)) = .ok (.fillPix x wenc y henc col) :=
  congrArg Except.ok (decodeCommand_encoded_fill x wenc y henc col (a := 0x2000) rfl)

theorem decode_encode_fillPal :
    decode (encode (.fillPal x wenc y henc col)) = .ok (.fillPal x wenc y henc col) :=
  congrArg Except.ok (decodeCommand_encoded_fill x wenc y henc col (a := 0x6000) rfl)

end

/-- A window write that enables a byte: its tuple's three fields do not overlap (R105). -/
theorem decode_encode_winWrite {be : BitVec 2} (hbe : byteEnabled be = true) (i : BitVec 13) (d : Word) :
    decode (encode (.winWrite i be d)) = .ok (.winWrite i be d) := by
  simp [encode, decode, decodeInput, decodeWinWrite, tupleIndex_encodeTuple, tupleEnable_encodeTuple,
    tupleData_encodeTuple, hbe]

/-- Settles O1: a command by the fields of its words, a window write by those of its tuple, any other input by its selector. -/
theorem decodeOfEncodeIsTheInstruction : Obligations.DecodeOfEncodeIsTheInstruction := by
  unfold Obligations.DecodeOfEncodeIsTheInstruction
  intro i hi
  cases i
  case tileO => exact decode_encode_tileO ..
  case tileT => exact decode_encode_tileT ..
  case fillPix => exact decode_encode_fillPix ..
  case fillPal => exact decode_encode_fillPal ..
  case winWrite => exact decode_encode_winWrite hi ..
  case ctcTo l => cases l <;> rfl
  all_goals rfl

/-! ## What spells no operation -/

theorem decodePortWrite_undefined {sel : BitVec 4} (h : 9 ≤ sel.toNat) (d : Byte) :
    decodePortWrite sel d = .error (.undefinedPort sel) := by
  have hne : ∀ k : BitVec 4, k.toNat < 9 → sel ≠ k := by rintro k hk rfl; omega
  simp [decodePortWrite, hne]

theorem decodePortRead_undefined {sel : BitVec 4} (h : 9 ≤ sel.toNat) :
    decodePortRead sel = .error (.undefinedPort sel) := by
  have h2 : sel ≠ 0x2 := by rintro rfl; revert h; decide
  have h8 : ¬ sel ≤ 0x8 := Nat.not_le.2 h
  rw [decodePortRead, if_neg h2, if_neg h8]

theorem decodePortRead_writeOnly {sel : BitVec 4} (h8 : sel.toNat ≤ 8) (h2 : sel.toNat ≠ 2) :
    decodePortRead sel = .error (.readOfWriteOnlyPort sel) := by
  have hne : sel ≠ 0x2 := by rintro rfl; exact h2 rfl
  have hle : sel ≤ 0x8 := h8
  rw [decodePortRead, if_neg hne, if_pos hle]

/-- A window write that enables no byte is rejected, whatever its index and data. -/
theorem decodeWinWrite_without_enable (i : BitVec 13) (d : Word) :
    decodeWinWrite (encodeTuple i 0b00 d) = .error .windowWriteWithoutByteEnable := by
  simp [decodeWinWrite, tupleEnable_encodeTuple, byteEnabled]

theorem decodeEvent_undefined {sel : BitVec 3} (h : 5 ≤ sel.toNat) :
    decodeEvent sel = .error (.undefinedEvent sel) := by
  have hne : ∀ k : BitVec 3, k.toNat < 5 → sel ≠ k := by rintro k hk rfl; omega
  simp [decodeEvent, hne]

/-- A step refuses the input that the decoder rejects, by the same name. -/
theorem step_refused_of_error {s : State} {w : InputWord} {rest : List Input} {e : Reject} (h : s.inputs = .op w :: rest)
    (hp : s.ch1.romPointer.toNat < 0x2000) (he : decodeInput w = .error e) : step s = .refused (refusalOf e) :=
  (step_deliver h hp).trans (runInput_of_error he _)

/-- Settles O7: the decoder rejects each of the four kinds of input by its name. -/
theorem stepRefusesInputsThatSpellNoOperation : Obligations.StepRefusesInputsThatSpellNoOperation := by
  unfold Obligations.StepRefusesInputsThatSpellNoOperation
  intro s w rest hin hp
  refine ⟨?_, ?_, ?_, ?_⟩
  · rintro sel d h (rfl | rfl)
    · exact step_refused_of_error hin hp (decodePortWrite_undefined h d)
    · exact step_refused_of_error hin hp (decodePortRead_undefined h)
  · rintro sel h8 h2 rfl
    exact step_refused_of_error hin hp (decodePortRead_writeOnly h8 h2)
  · rintro d rfl
    exact step_refused_of_error (e := .writeOfStatusPort) hin hp rfl
  · rintro i d rfl
    exact step_refused_of_error hin hp (decodeWinWrite_without_enable i d)

/-- Settles O8: the decoder rejects the selectors past the last event. -/
theorem stepRefusesUndefinedEvents : Obligations.StepRefusesUndefinedEvents := by
  unfold Obligations.StepRefusesUndefinedEvents
  intro s sel rest hin hp h
  exact step_refused_of_error hin hp (decodeEvent_undefined h)

/-! ## The meaning of a slot -/

/-- The words of a slot do what the command they spell does, kind by kind (R96, R150). -/
theorem exec_decodeCommand (a x y c : Word) (s : State) :
    exec (decodeCommand a x y c) s = .next (runWords Config.launch a x y c s) := by
  unfold decodeCommand runWords
  cases classify a <;> rfl

/-- Settles O32, for the four words of the slot. -/
theorem slotRunsAsItsDecodedCommand : Obligations.SlotRunsAsItsDecodedCommand := by
  unfold Obligations.SlotRunsAsItsDecodedCommand
  intro b k s
  exact exec_decodeCommand ..

end Sys2Proof.Machine
end

