-- ==== Sys2Proof/Proofs/DmaControl.lean ====
section
/-! PROOFS. The statements of 40_dma_control.md: the trigger and its replay (R120 to R123), stop and completion (R124 to
R128), the window and the status port (R129 to R131). -/

namespace Sys2Proof.Machine

/-! ## The slots of a replay as instructions -/

@[simp] theorem mem_flip (s : State) (b : BankId) (sp : Space) : State.mem { s with activeBank := b } sp = s.mem sp := rfl

/-- The command a slot spells depends on its bank alone. -/
theorem slotCommand_congr {L : Launch} {s t : State} {b : BankId} (h : s.mem (.bank b) = t.mem (.bank b)) (k : Nat) :
    slotCommand L s b k = slotCommand L t b k := by
  simp only [slotCommand, bankWord_congr h]

/-- The commands that a bank's slots spell beforehand are what a scan of the slots runs: no command writes a bank. -/
theorem execAll_slotCommands {s t : State} {b : BankId} (h : s.mem (.bank b) = t.mem (.bank b)) (ks : List Nat) :
    execAll (ks.map (slotCommand Config.launch s b)) t =
      .next (ks.foldl (fun t k => replaySlot Config.launch b k t) t) := by
  induction ks generalizing t with
  | nil => rfl
  | cons k ks ih =>
    have hrun : exec (slotCommand Config.launch s b k) t = .next (replaySlot Config.launch b k t) := by
      rw [slotCommand_congr h]
      exact slotRunsAsItsDecodedCommand b k t
    have hbank : s.mem (.bank b) = (replaySlot Config.launch b k t).mem (.bank b) :=
      h.trans ((replaySlot_frame ..).mem (by simp)).symm
    simp only [List.map_cons, execAll, hrun, List.foldl_cons]
    exact ih hbank

/-! ## What a trigger leaves -/

/-- A trigger settles `busy` by the count it records, over the state it flips, draws on and records it in. -/
theorem trigger_settled (L : Launch) (s : State) :
    trigger L s = settleBusy L (trigger L s).pixelsProcessed
      { s with
        activeBank := otherBank s.activeBank, fb := (trigger L s).fb
        pixelsProcessed := (trigger L s).pixelsProcessed, cnt := 0 } := by
  rw [trigger_fb, trigger_pixelsProcessed]
  exact trigger_eq L s

theorem settleBusy_activeBank (L : Launch) (n : BitVec 32) (s : State) :
    (settleBusy L n s).activeBank = s.activeBank := by
  rw [settleBusy_eq]
  split <;> rfl

theorem trigger_activeBank (L : Launch) (s : State) : (trigger L s).activeBank = otherBank s.activeBank := by
  rw [trigger_eq]
  exact settleBusy_activeBank ..

/-- Settles O33: the scan of the flipped state runs the commands that the bank spelled before. -/
theorem triggerRunsEverySlotInOrder : Obligations.TriggerRunsEverySlotInOrder := by
  unfold Obligations.TriggerRunsEverySlotInOrder
  intro s
  refine ⟨replay Config.launch s.activeBank { s with activeBank := otherBank s.activeBank }, trigger Config.launch s,
    ?_, rfl, trigger_fb .., trigger_pixelsProcessed .., trigger_activeBank ..⟩
  have hbank : s.mem (.bank s.activeBank) =
      State.mem { s with activeBank := otherBank s.activeBank, cnt := 0 } (.bank s.activeBank) := rfl
  rw [replay, ← slots_eq]
  exact execAll_slotCommands hbank _

/-- Settles O34, by the two cases of settling `busy`. -/
theorem triggerSettlesBusyAndSchedules : Obligations.TriggerSettlesBusyAndSchedules := by
  unfold Obligations.TriggerSettlesBusyAndSchedules
  intro s
  refine ⟨trigger Config.launch s, rfl, trigger_pixelsProcessed .., trigger_fb .., fun hn => ?_, fun hn => ?_⟩
  · refine (trigger_settled ..).trans ?_
    rw [settleBusy_eq, if_neg hn, completionDelay]
  · refine (trigger_settled ..).trans ?_
    rw [settleBusy_eq, if_pos hn, hn]

/-! ## The count -/

theorem drawnOver_cnt (t r : State) : (drawnOver t r).cnt = r.cnt := rfl

/-- Which bank the host reaches has no part in what a replay counts. -/
theorem replay_flip_cnt (L : Launch) (b b' : BankId) (s : State) :
    (replay L b { s with activeBank := b' }).cnt = (replay L b s).cnt :=
  (congrArg State.cnt (replay_over (mem_flip s b' (.bank b)).symm rfl rfl)).trans (drawnOver_cnt ..)

/-- Run from a count of 0, a slot leaves what it counts. -/
theorem replaySlot_cnt_from_zero (L : Launch) (b : BankId) (k : Nat) (s : State) :
    (replaySlot L b k { s with cnt := 0 }).cnt.toNat = slotCount L s b k := by
  have hle := slotCount_le L s b k
  have hsame : SameButDrawing s { s with cnt := 0 } := rfl
  rw [replaySlot_cnt, slotCount_congr hsame, zero_add, BitVec.toNat_ofNat, Nat.mod_eq_of_lt (by omega)]

/-- Settles O36: a replay counts the sum of its slots' counts, each of which is a slot's run by itself. -/
theorem replayCountIsTheBoundedSum : Obligations.ReplayCountIsTheBoundedSum := by
  unfold Obligations.ReplayCountIsTheBoundedSum
  intro s t ht
  obtain rfl : trigger Config.launch s = t := Host.Outcome.next.inj ht
  rw [trigger_pixelsProcessed, replay_flip_cnt]
  simp only [replaySlot_cnt_from_zero]
  exact replay_cnt ..

/-! ## A bank of NOPs -/

theorem replaySlot_nop {L : Launch} {b : BankId} {k : Nat} {s : State} (h : bankWord L s b (4 * k) = 0) :
    replaySlot L b k s = s := by
  rw [replaySlot, h]
  rfl

/-- A replay of NOPs draws nothing and counts nothing: each slot stands as it stood before. -/
theorem replay_nops {L : Launch} {b : BankId} {s : State} (h : ∀ k, k < slots → bankWord L s b (4 * k) = 0) :
    replay L b s = { s with cnt := 0 } := by
  unfold replay
  refine List.foldlRecOn (motive := fun t => t = { s with cnt := 0 }) _ _ rfl fun t ht k hk => ?_
  subst ht
  exact replaySlot_nop ((bankWord_congr rfl _).trans (h k (List.mem_range.1 hk)))

/-- Settles O37: a replay of NOPs counts 0, and a count of 0 leaves the block idle. -/
theorem triggerOverEmptyBankStaysIdle : Obligations.TriggerOverEmptyBankStaysIdle := by
  unfold Obligations.TriggerOverEmptyBankStaysIdle
  intro s h
  have hnops : replay Config.launch s.activeBank { s with activeBank := otherBank s.activeBank } =
      { s with activeBank := otherBank s.activeBank, cnt := 0 } :=
    replay_nops fun k hk => (bankWord_congr (mem_flip ..) _).trans (h k hk)
  refine congrArg Host.Outcome.next ?_
  rw [trigger_eq, hnops]
  exact (settleBusy_eq ..).trans (if_pos rfl)

/-! ## Stop and completion -/

theorem exec_dmaStop (s : State) :
    exec .dmaStop s = .next { s with
      busy := false, pending := none, outputs := s.outputs ++ (if s.pending.isSome then [.cancel] else []) } :=
  congrArg Host.Outcome.next (cancelPending_eq _)

theorem exec_timerFire_pending {s : State} {d : Nat} (h : s.pending = some d) :
    exec .timerFire s = .next { s with busy := false, pending := none } := by
  simp only [exec, execTimerFire, h]

theorem exec_timerFire_idle {s : State} (h : s.pending = none) :
    exec .timerFire s = .fault (.defect .timerFireWithNothingPending) := by
  simp only [exec, execTimerFire, h, raiseDefect]

/-- Settles O38: the decoder reads no data of port 0x1. -/
theorem stopClearsBusyAndCancels : Obligations.StopClearsBusyAndCancels := by
  unfold Obligations.StopClearsBusyAndCancels
  exact fun _ s => ⟨rfl, exec_dmaStop s⟩

/-- Settles O39, by whether an event is pending. -/
theorem completionClearsBusyOrIsADefect : Obligations.CompletionClearsBusyOrIsADefect := by
  unfold Obligations.CompletionClearsBusyOrIsADefect
  exact fun s => ⟨rfl, fun _ hd => exec_timerFire_pending hd, exec_timerFire_idle⟩

/-- Settles O40: after the fire a stop finds nothing to cancel, and after the stop a fire finds nothing pending. -/
theorem completionAndStopRaceToTheSameState : Obligations.CompletionAndStopRaceToTheSameState := by
  unfold Obligations.CompletionAndStopRaceToTheSameState
  intro s d hd
  refine ⟨{ s with busy := false, pending := none },
    { s with busy := false, pending := none, outputs := s.outputs ++ [.cancel] }, ?_, ?_, exec_timerFire_idle rfl, rfl, rfl⟩
  · simp [execAll, exec_timerFire_pending hd, exec_dmaStop]
  · simp [exec_dmaStop, hd]

/-! ## The window and the status port -/

theorem exec_winWrite_enabled {be : BitVec 2} (h : be ≠ 0) (i : BitVec 13) (d : Word) (s : State) :
    exec (.winWrite i be d) s =
      .next (writeLanes (.bank s.activeBank) i.toNat (be.getLsbD 1) (be.getLsbD 0) d s) :=
  if_pos (by simpa [byteEnabled] using h)

/-- A write of lanes leaves every byte but the enabled ones of its word. -/
theorem readByte_writeLanes_disabled {L : Launch} {sp sp' : Space} {i a : Nat} {hi lo : Bool}
    (h : ¬ (sp' = sp ∧ (hi = true ∧ a = 2 * i ∨ lo = true ∧ a = 2 * i + 1))) (d : Word) (s : State) :
    readByte L (writeLanes sp i hi lo d s) sp' a = readByte L s sp' a := by
  rw [readByte_writeLanes, if_neg fun ⟨e, hlo⟩ => h ⟨e, .inr hlo⟩, if_neg fun ⟨e, hhi⟩ => h ⟨e, .inl hhi⟩]

/-- Settles O41, from what a write of lanes does to its word, to the other bytes and to the registers. -/
theorem windowWriteStoresTheEnabledLanes : Obligations.WindowWriteStoresTheEnabledLanes := by
  unfold Obligations.WindowWriteStoresTheEnabledLanes
  intro i be d s
  refine ⟨fun hbe => ⟨_, exec_winWrite_enabled hbe i d s, readWord_writeLanes ..,
    fun sp a h => readByte_writeLanes_disabled h d s, writeLanes_bank_frame ..⟩, ?_⟩
  rintro rfl
  rfl

/-- Settles O42: the answer is the word that the two bytes form. -/
theorem windowReadAnswersTheActiveBank : Obligations.WindowReadAnswersTheActiveBank := by
  unfold Obligations.WindowReadAnswersTheActiveBank
  exact fun _ _ => rfl

/-- The status word is `busy` in bit 0: the whole word is what a read of both lanes keeps of it. -/
theorem statusWord_eq (s : State) : statusWord s = if s.busy then 0x0001 else 0x0000 := selectLanes_statusWord .word s

/-- Settles O43, by the status word. -/
theorem statusAnswersBusy : Obligations.StatusAnswersBusy := by
  unfold Obligations.StatusAnswersBusy
  intro s
  rw [← statusWord_eq]
  rfl

end Sys2Proof.Machine
end

