-- ==== Sys2Proof/Proofs/DmaCommands.lean ====
section
/-! PROOFS. The statements of 41_dma_commands.md: the NOP (R153), the walk and the pixels of a tile draw (R154 to R159), the
fills (R160 to R162), and which bytes of the frame buffer a command writes (R163 to R165). -/

namespace Sys2Proof.Machine

/-! ## The NOP -/

/-- A slot whose first word is 0 does nothing, whatever its other words hold. -/
theorem replaySlot_of_attr_zero {L : Launch} {b : BankId} {k : Nat} {s : State} (h : bankWord L s b (4 * k) = 0) :
    replaySlot L b k s = s := by
  rw [replaySlot, h]
  rfl

/-- Settles O21: `attr` alone makes a NOP. -/
theorem nopChangesNothing : Obligations.NopChangesNothing := by
  unfold Obligations.NopChangesNothing
  exact fun _ _ _ _ => ⟨rfl, rfl, fun _ _ => replaySlot_of_attr_zero⟩

/-! ## The walk -/

/-- Settles O26: the tile at each place of the walk, with the source tile that many after the first. -/
theorem tileWalkIsColumnMajorAndConsecutive : Obligations.TileWalkIsColumnMajorAndConsecutive := by
  unfold Obligations.TileWalkIsColumnMajorAndConsecutive
  intro code0 w h
  refine ⟨(List.length_zipIdx ..).trans (length_tileOrder w h), fun j k hj hk => ?_⟩
  rw [tileWalk, List.getElem?_zipIdx, tileOrder_get w h j k hj hk]
  rfl

/-! ## The pixel decode -/

/-- Four bits joined with the first lowest. -/
theorem getLsbD_joinBits (c0 c1 c2 c3 : Bool) :
    let p : Nibble := ((BitVec.ofBool c3).setWidth 4 <<< 3) ||| ((BitVec.ofBool c2).setWidth 4 <<< 2) |||
      ((BitVec.ofBool c1).setWidth 4 <<< 1) ||| (BitVec.ofBool c0).setWidth 4
    p.getLsbD 0 = c0 ∧ p.getLsbD 1 = c1 ∧ p.getLsbD 2 = c2 ∧ p.getLsbD 3 = c3 := by
  revert c0 c1 c2 c3
  decide

/-- The bits of a pixel are its column's bits of the four plane bytes. -/
theorem pixelOf_bits (L : Launch) (w0 w1 : Word) (q : Nat) :
    (pixelOf L w0 w1 q).getLsbD 0 = (planeByte w0 w1 L.planeMap.b1).getLsbD (planeBit L.pixelOrder q) ∧
    (pixelOf L w0 w1 q).getLsbD 1 = (planeByte w0 w1 L.planeMap.b2).getLsbD (planeBit L.pixelOrder q) ∧
    (pixelOf L w0 w1 q).getLsbD 2 = (planeByte w0 w1 L.planeMap.b3).getLsbD (planeBit L.pixelOrder q) ∧
    (pixelOf L w0 w1 q).getLsbD 3 = (planeByte w0 w1 L.planeMap.b4).getLsbD (planeBit L.pixelOrder q) :=
  getLsbD_joinBits ..

theorem getLsbD_loByte (w : Word) {q : Nat} (hq : q < 8) : (loByte w).getLsbD q = w.getLsbD q := by
  simp [loByte, hq]

theorem getLsbD_hiByte (w : Word) {q : Nat} (hq : q < 8) : (hiByte w).getLsbD q = w.getLsbD (8 + q) := by
  simp [hiByte, hq]

/-- Settles O27: the bits of the plane bytes, read in the reference order as bits of the two words. -/
theorem pixelDecodeReadsItsFourPlanes : Obligations.PixelDecodeReadsItsFourPlanes := by
  unfold Obligations.PixelDecodeReadsItsFourPlanes
  intro L w0 w1 q hq
  have hbits := pixelOf_bits L w0 w1 q
  constructor
  · rintro e (⟨ho, rfl⟩ | ⟨ho, rfl⟩) <;> simpa only [ho, planeBit] using hbits
  · intro hm ho
    rw [hm, ho] at hbits
    obtain ⟨h0, h1, h2, h3⟩ := hbits
    exact ⟨h3.trans (getLsbD_loByte w1 hq), h2.trans (getLsbD_hiByte w1 hq), h1.trans (getLsbD_loByte w0 hq),
      h0.trans (getLsbD_hiByte w0 hq)⟩

/-! ## The fills -/

/-- Drawing changes the frame buffer and the count, so the count may be written out. -/
theorem SameButDrawing.eq_of_cnt {s t : State} {n : BitVec 32} (h : SameButDrawing s t) (hn : t.cnt = n) :
    t = { s with fb := t.fb, cnt := n } :=
  hn ▸ h

/-- A fill leaves the colour in its plane's byte of every pixel of the block. -/
theorem fill_read_inside (L : Launch) (tgt : Plane) {b : Block} (colour : Byte) (s : State) {r q : Nat}
    (hr : r < 8 * b.h) (hq : q < 8 * b.w) :
    readByte L (fill L tgt b colour s) .frameBuffer (fbAddr L (b.y + r) (b.x + q) + planeOffset tgt) = colour := by
  rw [fill_eq_foldl]
  exact foldl_fillByte_filled ⟨_, mem_fillSites.2 ⟨r, q, hr, hq, rfl, rfl⟩, rfl⟩

/-- A fill leaves every byte outside its plane of the footprint alone. -/
theorem fill_read_outside {L : Launch} {tgt : Plane} {b : Block} {a : Nat} (h : ¬ inFootprint L b (planeOffset tgt) a)
    (colour : Byte) (s : State) :
    readByte L (fill L tgt b colour s) .frameBuffer a = readByte L s .frameBuffer a := by
  rw [fill_eq_foldl]
  refine foldl_fillByte_untouched ?_
  rintro ⟨Y, X⟩ hp e
  obtain ⟨r, q, hr, hq, rfl, rfl⟩ := mem_fillSites.1 hp
  exact h ⟨r, q, hr, hq, e⟩

/-- A fill changes the frame buffer alone and counts every pixel of the block. -/
theorem fill_eq (L : Launch) (tgt : Plane) (b : Block) (colour : Byte) (s : State) :
    fill L tgt b colour s =
      { s with fb := (fill L tgt b colour s).fb, cnt := s.cnt + BitVec.ofNat 32 (64 * (b.w * b.h)) } :=
  (fill_frame ..).eq_of_cnt (fill_cnt ..)

/-- Settles O22: the fill of the pixel plane. -/
theorem fillPixPaintsItsFootprint : Obligations.FillPixPaintsItsFootprint := by
  unfold Obligations.FillPixPaintsItsFootprint
  exact fun x wenc y henc col s =>
    ⟨_, rfl, fun _ _ => fill_read_inside Config.launch .pixel (b := blockOf x wenc y henc) col s,
      fun _ h => fill_read_outside (tgt := .pixel) h col s, fill_eq ..⟩

/-- Settles O23: the fill of the palette plane. -/
theorem fillPalPaintsItsFootprint : Obligations.FillPalPaintsItsFootprint := by
  unfold Obligations.FillPalPaintsItsFootprint
  exact fun x wenc y henc col s =>
    ⟨_, rfl, fun _ _ => fill_read_inside Config.launch .palette (b := blockOf x wenc y henc) col s,
      fun _ h => fill_read_outside (tgt := .palette) h col s, fill_eq ..⟩

/-! ## The two planes -/

/-- No byte is a pixel byte and a palette byte. -/
theorem fbAddr_ne_pixel {L : Launch} (hL : L.Allowed) (Y X Y' X' : Nat) : fbAddr L Y X ≠ fbAddr L Y' X' + 1 := by
  rw [fbAddr_even hL Y X, fbAddr_even hL Y' X']
  omega

/-- A palette byte is in no footprint of the pixel plane. -/
theorem paletteByte_outside {L : Launch} (hL : L.Allowed) (b : Block) (Y X : Nat) :
    ¬ inFootprint L b 1 (fbAddr L Y X) :=
  fun ⟨_, _, _, _, e⟩ => fbAddr_ne_pixel hL _ _ _ _ e

/-- A pixel byte is in no footprint of the palette plane. -/
theorem pixelByte_outside {L : Launch} (hL : L.Allowed) (b : Block) (Y X : Nat) :
    ¬ inFootprint L b 0 (fbAddr L Y X + 1) :=
  fun ⟨_, _, _, _, e⟩ => fbAddr_ne_pixel hL _ _ _ _ e.symm

/-- A tile draw writes no palette byte. -/
theorem tileDraw_paletteByte {L : Launch} (hL : L.Allowed) (trn : Bool) (code0 : Nat) (b : Block) (colour : Byte)
    (s : State) (Y X : Nat) : paletteByte L (tileDraw L trn code0 b colour s) Y X = paletteByte L s Y X :=
  tileDraw_read_untouched fun _ _ _ _ _ _ _ _ _ => fbAddr_ne_pixel hL _ _ _ _

/-- Settles O18, command by command. -/
theorem noCommandWritesBothPlanes : Obligations.NoCommandWritesBothPlanes := by
  unfold Obligations.NoCommandWritesBothPlanes
  intro i s t hc h
  have hL := Config.launch_allowed
  cases i
  case nop =>
    cases h
    exact ⟨fun _ _ _ => rfl, fun _ _ _ _ _ e => nomatch e⟩
  case tileO | tileT =>
    cases h
    exact ⟨fun _ => tileDraw_paletteByte hL _ _ _ _ _, fun _ _ _ _ _ e => nomatch e⟩
  case fillPix x wenc y henc col =>
    cases h
    exact ⟨fun _ Y X => fill_read_outside (tgt := .pixel) (paletteByte_outside hL _ Y X) col s,
      fun _ _ _ _ _ e => nomatch e⟩
  case fillPal x wenc y henc col =>
    cases h
    exact ⟨fun hne => absurd rfl (hne x wenc y henc col),
      fun _ _ _ _ _ _ Y X => fill_read_outside (tgt := .palette) (pixelByte_outside hL _ Y X) col s⟩
  all_goals cases hc

/-! ## The tile draws -/

/-- A byte of the footprint is the byte of pixel (r, q) of some tile (j, k) of the block. -/
theorem inFootprint_iff_tile {L : Launch} {b : Block} {off a : Nat} :
    inFootprint L b off a ↔ ∃ j k r q, j < b.w ∧ k < b.h ∧ r < 8 ∧ q < 8 ∧
      a = fbAddr L (b.y + 8 * k + r) (b.x + 8 * j + q) + off := by
  constructor
  · rintro ⟨r, q, hr, hq, rfl⟩
    refine ⟨q / 8, r / 8, r % 8, q % 8, by omega, by omega, by omega, by omega, ?_⟩
    rw [Nat.add_assoc, Nat.add_assoc, Nat.div_add_mod, Nat.div_add_mod]
  · rintro ⟨j, k, r, q, hj, hk, hr, hq, rfl⟩
    exact ⟨8 * k + r, 8 * j + q, by omega, by omega, by rw [Nat.add_assoc, Nat.add_assoc]⟩

/-- A byte that a written pixel addresses holds the value of one. -/
theorem paint_read_written {L : Launch} {trn : Bool} {base : Byte} {ps : List Site} {s : State} {a : Nat}
    (h : ∃ p ∈ ps, written trn p ∧ a = siteAddr L p) :
    ∃ p ∈ ps, readByte L (paint L trn base ps s) .frameBuffer a = siteValue base p := by
  induction ps generalizing s with
  | nil => simp at h
  | cons p ps ih =>
    rw [paint_cons]
    by_cases hlater : ∃ q ∈ ps, written trn q ∧ a = siteAddr L q
    · obtain ⟨q, hq, e⟩ := ih hlater
      exact ⟨q, List.mem_cons_of_mem _ hq, e⟩
    · have hp : written trn p ∧ a = siteAddr L p := by simpa [hlater] using h
      refine ⟨p, List.mem_cons_self, ?_⟩
      rw [paint_untouched fun q hq hw e => hlater ⟨q, hq, hw, e⟩, plotPixel_read, if_pos hp]

/-- A stored value carries the colour's low nibble in its high one (R164). -/
theorem siteValue_highNibble (col : Byte) (p : Site) :
    (siteValue (basePix col) p).extractLsb' 4 4 = col.extractLsb' 0 4 := by
  unfold siteValue basePix
  ext i hi
  simp [BitVec.getLsbD_eq_getElem, show 4 + i < 8 by omega, show i < 8 by omega]

/-- An opaque draw leaves no pixel byte of its footprint unwritten. -/
theorem tileDraw_opaque_highNibble {L : Launch} {b : Block} {a : Nat} (h : inFootprint L b 1 a) (code0 : Nat) (col : Byte)
    (s : State) :
    (readByte L (tileDraw L false code0 b col s) .frameBuffer a).extractLsb' 4 4 = col.extractLsb' 0 4 := by
  obtain ⟨j, k, r, q, hj, hk, hr, hq, e⟩ := inFootprint_iff_tile.1 h
  rw [tileDraw_eq_paint, tileSites_eq_map]
  obtain ⟨p, -, hp⟩ := paint_read_written (L := L) (trn := false) (base := basePix col) (s := s)
    ⟨_, List.mem_map_of_mem (f := siteOf L s code0 b) (mem_blockPixels.2 ⟨hj, hk, hr, hq⟩), rfl, e⟩
  rw [hp, siteValue_highNibble]

/-- Settles O24: every pixel of an opaque draw is written, and the last one of a byte decides it. -/
theorem opaqueTileDrawOverwritesItsFootprint : Obligations.OpaqueTileDrawOverwritesItsFootprint := by
  unfold Obligations.OpaqueTileDrawOverwritesItsFootprint
  intro code x wenc y henc col s
  refine ⟨_, rfl, fun j k r q hj hk hr hq hlast => ?_, fun r q hr hq => ?_, fun a ha => ?_, ?_⟩
  · exact tileDraw_read_last (b := blockOf x wenc y henc) hj hk hr hq rfl
      fun j' k' r' q' hj' hk' hr' hq' hlt _ => hlast j' k' r' q' hj' hk' hr' hq' hlt
  · exact tileDraw_opaque_highNibble (b := blockOf x wenc y henc) ⟨r, q, hr, hq, rfl⟩ code.toNat col s
  · exact tileDraw_read_untouched fun j k r q hj hk hr hq _ e =>
      ha (inFootprint_iff_tile.2 ⟨j, k, r, q, hj, hk, hr, hq, e⟩)
  · exact (tileDraw_frame ..).eq_of_cnt (tileDraw_opaque_cnt ..)

theorem written_true (p : Site) : written true p = (p.2.2 != 0) := rfl

/-- A transparent draw writes the pixels of non-zero value. -/
theorem written_siteOf {L : Launch} {s : State} {code0 : Nat} {b : Block} {j k r q : Nat} :
    written true (siteOf L s code0 b (j, k, r, q)) ↔ tilePixel L s code0 b.h j k r q ≠ 0 := by
  simp [written_true, siteOf]

/-- Where skipped pixels count, a draw counts every pixel of the block. -/
theorem tileDraw_cnt_skips {L : Launch} (h : L.countTransparentSkips = true) (trn : Bool) (code0 : Nat) (b : Block)
    (colour : Byte) (s : State) :
    (tileDraw L trn code0 b colour s).cnt = s.cnt + BitVec.ofNat 32 (64 * (b.w * b.h)) := by
  simp only [tileDraw_cnt, h, Bool.or_true, List.countP_true, length_blockPixels]

/-- The pixels of a block that meet a condition, counted tile by tile and row by row. -/
theorem countP_blockPixels (f : Nat × Nat × Nat × Nat → Bool) (w h : Nat) :
    (blockPixels w h).countP f =
      ((List.range w).map fun j => ((List.range h).map fun k =>
        ((List.range 8).map fun r => (List.range 8).countP fun q => f (j, k, r, q)).sum).sum).sum := by
  simp only [blockPixels, List.countP_flatMap, List.countP_map, Function.comp_def]

/-- Where skipped pixels do not count, a transparent draw counts the pixels of non-zero value. -/
theorem tileDraw_transparent_cnt {L : Launch} (h : L.countTransparentSkips = false) (code0 : Nat) (b : Block)
    (colour : Byte) (s : State) :
    (tileDraw L true code0 b colour s).cnt = s.cnt + BitVec.ofNat 32
      ((List.range b.w).map fun j => ((List.range b.h).map fun k =>
        ((List.range 8).map fun r => (List.range 8).countP fun q =>
          tilePixel L s code0 b.h j k r q != 0).sum).sum).sum := by
  simp only [tileDraw_cnt, h, Bool.or_false, countP_blockPixels, written_true, siteOf]

/-- Settles O25: the pixels of non-zero value are written, and the last of them at a byte decides it. -/
theorem transparentTileDrawSkipsZeroPixels : Obligations.TransparentTileDrawSkipsZeroPixels := by
  unfold Obligations.TransparentTileDrawSkipsZeroPixels
  intro code x wenc y henc col s
  refine ⟨_, rfl, fun j k r q hj hk hr hq hpix hlast => ?_, fun a ha => ?_, (tileDraw_frame ..).eq_of_cnt rfl,
    fun hskip => tileDraw_cnt_skips hskip .., fun hskip => tileDraw_transparent_cnt hskip ..⟩
  · exact tileDraw_read_last (b := blockOf x wenc y henc) hj hk hr hq (written_siteOf.2 hpix)
      fun j' k' r' q' hj' hk' hr' hq' hlt hw => hlast j' k' r' q' hj' hk' hr' hq' hlt (written_siteOf.1 hw :)
  · exact tileDraw_read_untouched fun j k r q hj hk hr hq hw => ha j k r q hj hk hr hq (written_siteOf.1 hw :)

end Sys2Proof.Machine
end

