-- ==== Sys2Proof/Proofs/Adpcm.lean ====
section
/-! PROOFS. The statements of 42_adpcm.md: the ports of the two channels (R195 to R204), the advance of channel 0 by GEN0_VCK
(R190, R191, R206), the divided clock of channel 1 with its loop (R207 to R212), and what changes a channel's pointer (R202,
R203). -/

namespace Sys2Proof.Machine

/-! ## One advance -/

/-- The pointer moves with the low nibble of a channel that is not held (R190). -/
theorem Channel.advanced_romPointer (ch : Channel) :
    ch.advanced.romPointer =
      if ch.held = false ∧ ch.nibblePhase = true then ch.romPointer + 1 else ch.romPointer := by
  cases hheld : ch.held with
  | true => simp [Channel.advanced_of_held hheld]
  | false =>
    cases hphase : ch.nibblePhase with
    | false => simp [Channel.advanced_high hheld hphase]
    | true => simp [Channel.advanced_low hheld hphase]

theorem Channel.advanced_nibblePhase {ch : Channel} (h : ch.held = false) :
    ch.advanced.nibblePhase = !ch.nibblePhase := by
  cases hphase : ch.nibblePhase with
  | false => rw [Channel.advanced_high h hphase]; rfl
  | true => rw [Channel.advanced_low h hphase]; rfl

theorem pointer_succ (p : BitVec 21) : p + 1 = BitVec.ofNat 21 (p.toNat + 1) := by
  rw [BitVec.ofNat_add, BitVec.ofNat_toNat, BitVec.setWidth_eq]
  rfl

theorem toNat_pointer_succ (p : BitVec 21) : (p + 1).toNat = (p.toNat + 1) % 2 ^ 21 := by
  rw [pointer_succ, BitVec.toNat_ofNat]

/-- The byte after 0x1FFF is at the loop address, and no other is (R9, R209). -/
theorem pointer_succ_eq_ch1Loop {p : BitVec 21} : p + 1 = ch1Loop ↔ p.toNat = 0x1FFF := by
  rw [← BitVec.toNat_inj, toNat_pointer_succ]
  change _ = 0x2000 ↔ _
  have := p.isLt
  omega

/-- The two nibbles of a byte, the high one first, are the byte (R191). -/
theorem highNibble_append_lowNibble (v : Byte) : highNibble v ++ lowNibble v = v := by
  unfold highNibble lowNibble
  rw [BitVec.extractLsb'_append_extractLsb'_eq_extractLsb' (by rfl)]
  exact BitVec.extractLsb'_eq_self

/-- From the high nibble, two advances move the pointer by one and return to the phase (R191). -/
theorem Channel.advanced_twice {ch : Channel} (h : ch.held = false) (hp : ch.nibblePhase = false) :
    ch.advanced.advanced = { ch with romPointer := BitVec.ofNat 21 (ch.romPointer.toNat + 1) } := by
  rw [Channel.advanced_high h hp, Channel.advanced_low (ch := { ch with nibblePhase := true }) h rfl, ← pointer_succ,
    ← hp]

/-- From the high nibble, two advances play the nibbles of one byte (R191). -/
theorem Channel.played_twice {L : Launch} {c : Chan} {ch : Channel} (h : ch.held = false) (hp : ch.nibblePhase = false) :
    ch.played L c ++ ch.advanced.played L c =
      [.nib c (highNibble (romRead L c ch.romPointer.toNat)), .nib c (lowNibble (romRead L c ch.romPointer.toNat))] := by
  rw [Channel.played_high h hp, Channel.advanced_high h hp,
    Channel.played_low (ch := { ch with nibblePhase := true }) h rfl, List.singleton_append]

/-! ## Channel 0 -/

theorem exec_gen0Vck (s : State) :
    exec .gen0Vck s = .next { s with
      ch0 := s.ch0.advanced, outputs := s.outputs ++ s.ch0.played Config.launch .ch0 } :=
  congrArg Host.Outcome.next (advance_eq ..)

theorem exec_adpcm0Start (s : State) :
    exec .adpcm0Start s = .next { s with
      ch0 := { s.ch0 with held := false }, outReset0 := false, outputs := s.outputs ++ [.rst .ch0 false] } := rfl

theorem exec_adpcm0Stop (s : State) :
    exec .adpcm0Stop s = .next { s with
      ch0 := { held := true, nibblePhase := false, romPointer := clearLowByte s.ch0.romPointer }
      outReset0 := true, outputs := s.outputs ++ [.rst .ch0 true] } := rfl

/-- Settles O44, by what the channel's advance leaves and plays while held, at its high and at its low nibble. -/
theorem gen0ClockAdvancesChannel0 : Obligations.Gen0ClockAdvancesChannel0 := by
  unfold Obligations.Gen0ClockAdvancesChannel0
  intro s
  rw [exec_gen0Vck]
  refine ⟨fun h => ?_, fun h hp => ?_, fun h hp => ⟨_, toNat_pointer_succ _, ?_⟩⟩
  · rw [Channel.advanced_of_held h, Channel.played_of_held h, List.append_nil]
  · rw [Channel.advanced_high h hp, Channel.played_high h hp]; rfl
  · rw [Channel.advanced_low h hp, Channel.played_low h hp]; rfl

/-- Settles O45: two advances play the high nibble and then the low one, and move the pointer once. -/
theorem twoAdvancesPlayOneByte : Obligations.TwoAdvancesPlayOneByte := by
  unfold Obligations.TwoAdvancesPlayOneByte
  intro s h hp
  refine ⟨_, _, _, ?_, highNibble_append_lowNibble _, rfl⟩
  simp only [execAll, exec_gen0Vck, List.append_assoc, Channel.advanced_twice h hp, Channel.played_twice h hp]
  rfl

/-- Settles O46: a start writes `held` and its line. -/
theorem startsReleaseTheChannel : Obligations.StartsReleaseTheChannel := by
  unfold Obligations.StartsReleaseTheChannel
  exact fun s => ⟨exec_adpcm0Start s, rfl⟩

/-- Settles O47, by what clearing the low byte makes of a pointer. -/
theorem channel0StopClearsPhaseAndLowByte : Obligations.Channel0StopClearsPhaseAndLowByte := by
  unfold Obligations.Channel0StopClearsPhaseAndLowByte
  exact fun s => ⟨clearLowByte s.ch0.romPointer, toNat_clearLowByte _, exec_adpcm0Stop s⟩

/-- Settles O48: the stop names no pointer. -/
theorem channel1StopKeepsItsPointer : Obligations.Channel1StopKeepsItsPointer := by
  unfold Obligations.Channel1StopKeepsItsPointer
  exact fun _ => rfl

/-- Settles O49, by the fields of the two patches. -/
theorem addressPortsPatchTheirBits : Obligations.AddressPortsPatchTheirBits := by
  unfold Obligations.AddressPortsPatchTheirBits
  exact fun d s =>
    ⟨⟨patchLow s.ch0.romPointer d, rfl, patchLow_fields _ d⟩, ⟨patchHigh s.ch0.romPointer d, rfl, patchHigh_fields _ d⟩⟩

/-- The low byte cleared and both patches written, a pointer stands at the page, above it only its own bits [20:19]. -/
theorem toNat_pointer_at_page {P : Nat} (hlt : P < 2 ^ 19) (hpage : P % 0x100 = 0) (p : BitVec 21) :
    (patchHigh (patchLow (clearLowByte p) (BitVec.ofNat 8 (P / 2 ^ 8))) (BitVec.ofNat 8 (P / 2 ^ 16))).toNat =
      2 ^ 19 * (p.toNat / 2 ^ 19) + P := by
  rw [toNat_patchHigh, toNat_patchLow, toNat_clearLowByte, BitVec.toNat_ofNat, BitVec.toNat_ofNat]
  omega

/-- Settles O50: the sequence runs, and patches the pointer to the page. -/
theorem playFromPage : Obligations.PlayFromPage := by
  unfold Obligations.PlayFromPage
  exact fun P s hlt hpage => ⟨_, rfl, rfl, rfl, toNat_pointer_at_page hlt hpage s.ch0.romPointer⟩

/-- Settles O51: after the stop and the start the channel plays the high nibble at its cleared pointer. -/
theorem stopThenStartResumesAtThePage : Obligations.StopThenStartResumesAtThePage := by
  unfold Obligations.StopThenStartResumesAtThePage
  intro s
  simp only [execAll, exec_adpcm0Stop, exec_adpcm0Start, exec_gen0Vck]
  rw [Channel.advanced_high rfl rfl, Channel.played_high rfl rfl]
  refine ⟨_, rfl, toNat_clearLowByte _, rfl, ?_⟩
  rw [← toNat_clearLowByte]
  simp [romRead, highNibble]

/-! ## The clock of channel 1 -/

/-- The loop reset of an advance phase (R209). -/
theorem clockLevel_loop (L : Launch) {s : State} (h : s.prevClockToggle = true) (hc : s.clockToggle = false)
    (hloop : s.ch1.advanced.romPointer = ch1Loop) :
    clockLevel L false s = { s with
      prevClockToggle := false, clockToggle := true, outVck1 := false, outReset1 := false
      ch1 := { s.ch1.advanced with romPointer := 0 }
      outputs := s.outputs ++ (s.ch1.played L .ch1 ++ [.rst .ch1 true, .vck1 false, .rst .ch1 false]) } := by
  rw [clockLevel_advance L h hc, advancePhase_eq, if_pos hloop, List.append_assoc]

/-- An advance phase that stays off the loop address (R209). -/
theorem clockLevel_below (L : Launch) {s : State} (h : s.prevClockToggle = true) (hc : s.clockToggle = false)
    (hloop : s.ch1.advanced.romPointer ≠ ch1Loop) :
    clockLevel L false s = { s with
      prevClockToggle := false, clockToggle := true, outVck1 := false, ch1 := s.ch1.advanced
      outputs := s.outputs ++ (s.ch1.played L .ch1 ++ [.vck1 false]) } := by
  rw [clockLevel_advance L h hc, advancePhase_eq, if_neg hloop, List.append_assoc]

theorem exec_ctcTo (l : Bool) (s : State) : exec (.ctcTo l) s = .next (clockLevel Config.launch l s) := rfl

/-- Settles O52: a level that is no falling edge, and the pulse phase. -/
theorem clockLevelsOtherThanAnAdvance : Obligations.ClockLevelsOtherThanAnAdvance := by
  unfold Obligations.ClockLevelsOtherThanAnAdvance
  refine fun l s => ⟨fun h => ?_, fun h hl hc => ?_⟩
  · rw [exec_ctcTo, clockLevel_level _ h]
  · rw [hl, exec_ctcTo, clockLevel_pulse _ h hc]

theorem Channel.ne_ch1Loop_of_lt {ch : Channel} (h : ch.romPointer.toNat < 0x2000) : ch.romPointer ≠ ch1Loop := by
  intro e
  rw [e] at h
  exact absurd h (by decide)

/-- A pointer in range reaches the loop address by the low nibble of the byte at 0x1FFF alone (R209). -/
theorem Channel.advanced_eq_ch1Loop {ch : Channel} (h : ch.romPointer.toNat < 0x2000) :
    ch.advanced.romPointer = ch1Loop ↔ ch.held = false ∧ ch.nibblePhase = true ∧ ch.romPointer.toNat = 0x1FFF := by
  rw [Channel.advanced_romPointer]
  split
  · next hplay => rw [pointer_succ_eq_ch1Loop]; simp [hplay]
  · next hplay => simpa [Channel.ne_ch1Loop_of_lt h] using fun hheld hphase => absurd ⟨hheld, hphase⟩ hplay

/-- Settles O53: by whether the advance reaches the loop address, and by what it plays. -/
theorem advancePhaseAndLoopReset : Obligations.AdvancePhaseAndLoopReset := by
  unfold Obligations.AdvancePhaseAndLoopReset
  intro s hprev hc hrange
  have hloop := Channel.advanced_eq_ch1Loop hrange
  rw [exec_ctcTo]
  refine ⟨fun h => ?_, fun h hp => ?_, fun h hp hlt => ?_, fun h hp hlast => ?_⟩
  · rw [clockLevel_below _ hprev hc (by simp [hloop, h]), Channel.advanced_of_held h, Channel.played_of_held h]; rfl
  · rw [clockLevel_below _ hprev hc (by simp [hloop, hp]), Channel.advanced_high h hp, Channel.played_high h hp]; rfl
  · rw [clockLevel_below _ hprev hc (by simp [hloop, hlt.ne]), Channel.advanced_low h hp, Channel.played_low h hp,
      pointer_succ]
    rfl
  · rw [clockLevel_loop _ hprev hc (hloop.2 ⟨h, hp, hlast⟩), Channel.advanced_low h hp, Channel.played_low h hp]; rfl

/-! ## The periods of the clock -/

/-- The channel plays and has `n` nibbles behind it: `n / 2` whole bytes and, at an odd `n`, a high nibble. -/
structure Channel.StandsAt (n : Nat) (ch : Channel) : Prop where
  playing : ch.held = false
  pointer : ch.romPointer.toNat = n / 2
  phase : ch.nibblePhase = decide (n % 2 = 1)

theorem Channel.StandsAt.advanced {n : Nat} {ch : Channel} (h : ch.StandsAt n) (hn : n + 1 < 2 ^ 22) :
    ch.advanced.StandsAt (n + 1) where
  playing := (Channel.advanced_held ch).trans h.playing
  pointer := by
    rw [Channel.advanced_romPointer, h.phase, h.playing]
    by_cases hodd : n % 2 = 1
    · simp only [hodd, decide_true, and_self, if_true, toNat_pointer_succ, h.pointer]
      omega
    · simp only [hodd, decide_false, reduceCtorEq, and_false, if_false, h.pointer]
      omega
  phase := by
    rw [Channel.advanced_nibblePhase h.playing, h.phase, ← decide_not, decide_eq_decide]
    omega

/-- 0x4000 nibbles are the bytes below the loop address. -/
theorem Channel.StandsAt.eq_ch1Loop {ch : Channel} (h : ch.StandsAt 0x4000) : ch.romPointer = ch1Loop :=
  BitVec.eq_of_toNat_eq h.pointer

theorem Channel.StandsAt.ne_ch1Loop {n : Nat} {ch : Channel} (h : ch.StandsAt n) (hn : n < 0x4000) :
    ch.romPointer ≠ ch1Loop :=
  Channel.ne_ch1Loop_of_lt (by rw [h.pointer]; omega)

/-- A rise and a fall of the counter/timer output. -/
def clockPeriod (L : Launch) (s : State) : State := clockLevel L false (clockLevel L true s)

theorem clockPeriod_eq (L : Launch) (s : State) :
    clockPeriod L s = clockLevel L false { s with prevClockToggle := true } := by
  rw [clockPeriod, clockLevel_level L (.inr rfl)]

theorem clockPeriods_succ (k : Nat) : clockPeriods (k + 1) = clockPeriods k ++ [.ctcTo true, .ctcTo false] := by
  simp [clockPeriods, List.replicate_succ']

theorem execAll_clockPeriods_succ {k : Nat} {s t : State} (h : execAll (clockPeriods k) s = .next t) :
    execAll (clockPeriods (k + 1)) s = .next (clockPeriod Config.launch t) := by
  rw [clockPeriods_succ, execAll_append h]
  rfl

/-- After `k` periods from a divider about to advance: the divider advances at every second one, from the first on
(R210). -/
structure AfterPeriods (k : Nat) (s : State) : Prop where
  divider : s.clockToggle = decide (k % 2 = 1)
  channel : s.ch1.StandsAt ((k + 1) / 2)

/-- Below the loop, a period is a pulse or an advance in turn. -/
theorem AfterPeriods.succ {k : Nat} {s : State} (h : AfterPeriods k s) (hk : k + 1 < 0x7FFF) (L : Launch) :
    AfterPeriods (k + 1) (clockPeriod L s) := by
  rw [clockPeriod_eq]
  by_cases hodd : k % 2 = 1
  · rw [clockLevel_pulse L (s := { s with prevClockToggle := true }) rfl (by simp [h.divider, hodd])]
    have hn : (k + 1 + 1) / 2 = (k + 1) / 2 := by omega
    exact { divider := by simp; omega, channel := by rw [hn]; exact h.channel }
  · have hn : (k + 1 + 1) / 2 = (k + 1) / 2 + 1 := by omega
    have hadv := h.channel.advanced (by omega)
    rw [clockLevel_below L (s := { s with prevClockToggle := true }) rfl (by simp [h.divider, hodd])
      (hadv.ne_ch1Loop (by omega))]
    exact { divider := by simp; omega, channel := by rw [hn]; exact hadv }

/-- The period after 0x7FFE plays the last nibble below the loop address, and ends in the loop reset (R209, R212). -/
theorem AfterPeriods.loop {s : State} (h : AfterPeriods 0x7FFE s) (L : Launch) :
    (clockPeriod L s).ch1.romPointer = 0 ∧ (clockPeriod L s).ch1.nibblePhase = false ∧
      ∃ before, (clockPeriod L s).outputs = before ++ [.rst .ch1 true, .vck1 false, .rst .ch1 false] := by
  have hadv : s.ch1.advanced.StandsAt 0x4000 := h.channel.advanced (by decide)
  rw [clockPeriod_eq, clockLevel_loop L (s := { s with prevClockToggle := true }) rfl h.divider hadv.eq_ch1Loop]
  exact ⟨rfl, hadv.phase, _, (List.append_assoc ..).symm⟩

/-- Runs of fewer than 0x7FFF periods, by induction over the periods. -/
theorem execAll_clockPeriods {s : State} (h : AfterPeriods 0 s) {k : Nat} (hk : k < 0x7FFF) :
    ∃ t, execAll (clockPeriods k) s = .next t ∧ AfterPeriods k t := by
  induction k with
  | zero => exact ⟨s, rfl, h⟩
  | succ k ih =>
    obtain ⟨t, hrun, ht⟩ := ih (by omega)
    exact ⟨_, execAll_clockPeriods_succ hrun, ht.succ hk Config.launch⟩

/-- Settles O54: by induction up to period 0x7FFE, and the loop reset in the period after it. -/
theorem channel1LoopsOnEdge7FFF : Obligations.Channel1LoopsOnEdge7FFF := by
  unfold Obligations.Channel1LoopsOnEdge7FFF
  intro s _ hc hheld hphase hptr
  have h0 : AfterPeriods 0 s := ⟨hc, hheld, by rw [hptr]; rfl, hphase⟩
  refine ⟨fun k hk => ?_, ?_⟩
  · obtain ⟨t, hrun, ht⟩ := execAll_clockPeriods h0 hk
    exact ⟨t, hrun, ht.channel.pointer, ht.channel.phase, ht.divider⟩
  · obtain ⟨t, hrun, ht⟩ := execAll_clockPeriods h0 (k := 0x7FFE) (by decide)
    obtain ⟨hp, hph, before, hout⟩ := ht.loop Config.launch
    exact ⟨_, before, execAll_clockPeriods_succ hrun, hp, hph, hout⟩

/-! ## What changes a pointer -/

/-- The clock of channel 1 leaves channel 0 alone (R207). -/
theorem clockLevel_ch0 (L : Launch) (l : Bool) (s : State) : (clockLevel L l s).ch0 = s.ch0 := by
  obtain ⟨_, hover⟩ := clockLevel_over L l s
  exact (congrArg State.ch0 (hover s.ch0 s.outReset0 s.outputs) :)

/-- How the two pointers of `t` come from those of `s`, by the instruction that ran (R202, R203). -/
inductive MovesPointers (s t : State) : Instr → Prop where
  | neither {i} (h0 : t.ch0.romPointer = s.ch0.romPointer) (h1 : t.ch1.romPointer = s.ch1.romPointer) :
      MovesPointers s t i
  | stop0 (h0 : t.ch0.romPointer = clearLowByte s.ch0.romPointer) (h1 : t.ch1 = s.ch1) : MovesPointers s t .adpcm0Stop
  | addrLo {d} (h0 : t.ch0.romPointer = patchLow s.ch0.romPointer d) (h1 : t.ch1 = s.ch1) :
      MovesPointers s t (.adpcm0AddrLo d)
  | addrHi {d} (h0 : t.ch0.romPointer = patchHigh s.ch0.romPointer d) (h1 : t.ch1 = s.ch1) :
      MovesPointers s t (.adpcm0AddrHi d)
  | gen0 (h0 : t.ch0 = s.ch0.advanced) (h1 : t.ch1 = s.ch1) : MovesPointers s t .gen0Vck
  | clock {l} (h0 : t.ch0 = s.ch0) (h1 : t.ch1 = (clockLevel Config.launch l s).ch1) : MovesPointers s t (.ctcTo l)
  | reset : MovesPointers s t .reset

theorem MovesPointers.of_drawing {i : Instr} {s t : State} (h : SameButDrawing s t) : MovesPointers s t i :=
  .neither (by rw [h]) (by rw [h])

theorem MovesPointers.of_completion {i : Instr} {s t : State} (h : SameButCompletion s t) : MovesPointers s t i :=
  .neither (by rw [h]) (by rw [h])

/-- What every instruction that answers a next state does to the two pointers. -/
theorem exec_movesPointers {i : Instr} {s t : State} (h : exec i s = .next t) : MovesPointers s t i := by
  cases i
  case tileO => cases h; exact .of_drawing (tileDraw_frame ..)
  case tileT => cases h; exact .of_drawing (tileDraw_frame ..)
  case fillPix => cases h; exact .of_drawing (fill_frame ..)
  case fillPal => cases h; exact .of_drawing (fill_frame ..)
  case dmaStart =>
    have ht : trigger Config.launch s = t := Host.Outcome.next.inj h
    have hframe := ht ▸ trigger_frame Config.launch s
    exact .neither (by rw [hframe]) (by rw [hframe])
  case dmaStop => cases h; exact .of_completion (dmaStop_frame s)
  case timerFire =>
    simp only [exec, execTimerFire] at h
    split at h
    · cases h
    · cases h; exact .neither rfl rfl
  case winWrite j be d =>
    simp only [exec, execWinWrite] at h
    split at h
    · cases h
      obtain ⟨m, e⟩ := writeLanes_frame (.bank s.activeBank) j.toNat (be.getLsbD 1) (be.getLsbD 0) d s
      rw [e]
      exact .neither (by simp) (by simp)
    · cases h
  case adpcm0Stop => cases h; exact .stop0 rfl rfl
  case adpcm0AddrLo => cases h; exact .addrLo rfl rfl
  case adpcm0AddrHi => cases h; exact .addrHi rfl rfl
  case gen0Vck => rw [exec_gen0Vck] at h; cases h; exact .gen0 rfl rfl
  case ctcTo l => cases h; exact .clock (clockLevel_ch0 _ l s) rfl
  case reset => exact .reset
  all_goals cases h; exact .neither rfl rfl

/-- Bits [20:19] of a pointer are its quotient by 2^19. -/
theorem highBits_eq {p q : BitVec 21} (h : p.toNat / 2 ^ 19 = q.toNat / 2 ^ 19) :
    p.extractLsb' 19 2 = q.extractLsb' 19 2 := by
  apply BitVec.eq_of_toNat_eq
  simp only [BitVec.extractLsb'_toNat, Nat.shiftRight_eq_div_pow, h]

/-- Adding 1 carries into bits [20:19] only over 19 ones. -/
theorem highBits_pointer_succ {p : BitVec 21} (h : p.extractLsb' 0 19 ≠ 0x7FFFF) :
    (p + 1).extractLsb' 19 2 = p.extractLsb' 19 2 := by
  have hlow : p.toNat % 2 ^ 19 ≠ 0x7FFFF := by
    intro e
    exact h (BitVec.eq_of_toNat_eq (by simpa [BitVec.extractLsb'_toNat] using e))
  have := p.isLt
  exact highBits_eq (by rw [toNat_pointer_succ]; omega)

/-- Settles O19, by what moves the pointer of channel 0: the stop and the patches write bits below 19, an advance adds
1. -/
theorem highPointerBitsChangeOnlyByCarryOrReset : Obligations.HighPointerBitsChangeOnlyByCarryOrReset := by
  unfold Obligations.HighPointerBitsChangeOnlyByCarryOrReset
  intro i s t h hreset
  cases exec_movesPointers h with
  | neither h0 _ => rw [h0]; exact .inl rfl
  | stop0 h0 _ => rw [h0]; exact .inl (highBits_eq (by rw [toNat_clearLowByte]; omega))
  | @addrLo d h0 _ => rw [h0]; exact .inl (highBits_eq (by rw [toNat_patchLow]; have := d.isLt; omega))
  | addrHi h0 _ =>
    obtain ⟨-, -, hhigh⟩ := patchHigh_fields s.ch0.romPointer _
    rw [h0]; exact .inl hhigh
  | gen0 h0 _ =>
    rw [h0, Channel.advanced_romPointer]
    split
    · next hplay =>
      by_cases hcarry : s.ch0.romPointer.extractLsb' 0 19 = 0x7FFFF
      · exact .inr ⟨rfl, hplay.1, hplay.2, hcarry⟩
      · exact .inl (highBits_pointer_succ hcarry)
    · exact .inl rfl
  | clock h0 _ => rw [h0]; exact .inl rfl
  | reset => exact absurd rfl hreset

/-- An advance phase leaves the pointer of the advance, or 0 for the loop address (R209). -/
theorem clockLevel_advance_pointer (L : Launch) {s : State} (h : s.prevClockToggle = true) (hc : s.clockToggle = false) :
    (clockLevel L false s).ch1.romPointer =
      if s.ch1.advanced.romPointer = ch1Loop then 0 else s.ch1.advanced.romPointer := by
  by_cases hloop : s.ch1.advanced.romPointer = ch1Loop
  · rw [clockLevel_loop L h hc hloop, if_pos hloop]
  · rw [clockLevel_below L h hc hloop, if_neg hloop]

/-- A pointer after an advance and the loop reset: kept, moved by one, brought back from 0x1FFF, or brought back from the
loop address itself. -/
theorem Channel.looped_pointer_cases {ch : Channel} {p : BitVec 21}
    (h : p = if ch.advanced.romPointer = ch1Loop then 0 else ch.advanced.romPointer) :
    p = ch.romPointer ∨
      (ch.held = false ∧ ch.nibblePhase = true ∧ ch.romPointer.toNat ≠ 0x1FFF ∧ p = ch.romPointer + 1 ∨
        ch.held = false ∧ ch.nibblePhase = true ∧ ch.romPointer.toNat = 0x1FFF ∧ p = 0 ∨
        ¬ (ch.held = false ∧ ch.nibblePhase = true) ∧ ch.romPointer.toNat = 0x2000 ∧ p = 0) := by
  rw [Channel.advanced_romPointer] at h
  by_cases hplay : ch.held = false ∧ ch.nibblePhase = true
  · simp only [if_pos hplay, pointer_succ_eq_ch1Loop] at h
    obtain ⟨hheld, hphase⟩ := hplay
    by_cases hlast : ch.romPointer.toNat = 0x1FFF
    · exact .inr (.inr (.inl ⟨hheld, hphase, hlast, h.trans (if_pos hlast)⟩))
    · exact .inr (.inl ⟨hheld, hphase, hlast, h.trans (if_neg hlast)⟩)
  · rw [if_neg hplay] at h
    by_cases hloop : ch.romPointer = ch1Loop
    · exact .inr (.inr (.inr ⟨hplay, congrArg BitVec.toNat hloop, h.trans (if_pos hloop)⟩))
    · exact .inl (h.trans (if_neg hloop))

/-- Settles O20, by what moves the pointer of channel 1: of the levels of its clock, an advance phase alone. -/
theorem channel1PointerHasNoPort : Obligations.Channel1PointerHasNoPort := by
  unfold Obligations.Channel1PointerHasNoPort
  intro i s t h hreset
  cases exec_movesPointers h with
  | neither _ h1 => exact .inl h1
  | stop0 _ h1 => rw [h1]; exact .inl rfl
  | addrLo _ h1 => rw [h1]; exact .inl rfl
  | addrHi _ h1 => rw [h1]; exact .inl rfl
  | gen0 _ h1 => rw [h1]; exact .inl rfl
  | @clock l _ h1 =>
    rw [h1]
    obtain hl | ⟨hp, rfl, hc⟩ | ⟨hp, rfl, hc⟩ := clockLevel_cases l s
    · rw [clockLevel_level _ hl]; exact .inl rfl
    · rw [clockLevel_pulse _ hp hc]; exact .inl rfl
    · exact (Channel.looped_pointer_cases (clockLevel_advance_pointer _ hp hc)).imp_right
        fun hmoved => ⟨rfl, hp, hc, hmoved⟩
  | reset => exact absurd rfl hreset

end Sys2Proof.Machine
end

