-- ==== Sys2Proof/Proofs/Exceptions.lean ====
section
/-! PROOFS. The statements of 60_exceptions.md: where a step faults (R231, R232), and that the channel-1 clock and the ports of
channel 0 do not meet (R236). -/

namespace Sys2Proof.Machine

/-! ## The faults of a step -/

/-- Settles O10: the pointer is checked before the input is delivered. -/
theorem pointerOutOfRangeIsADefect : Obligations.PointerOutOfRangeIsADefect := by
  unfold Obligations.PointerOutOfRangeIsADefect
  intro s e rest hin hout
  have hrange : ¬ pointer1InRange s = true := by rw [pointer1InRange_iff]; omega
  simp [step, deliverNext, hin, hrange, raiseDefect]

/-- With the channel-1 pointer in range, a step that faults delivered an input that faults. -/
theorem deliver_fault_of_step_fault {s : State} {f : Fault} (hp : s.ch1.romPointer.toNat < 0x2000) (h : step s = .fault f) :
    ∃ e rest, s.inputs = e :: rest ∧ deliver e (takeInput rest s) = .fault f := by
  obtain ⟨e, rest, hin, ⟨hout, -⟩ | ⟨-, hd⟩⟩ := step_fault h
  · simp [pointer1InRange_iff.2 hp] at hout
  · exact ⟨e, rest, hin, hd⟩

/-- Settles O11: the invariant keeps the pointer in range, so what faults is the instruction or the host access that the step
delivers. -/
theorem faultsAreStrayCompletionOrBusyHazard : Obligations.FaultsAreStrayCompletionOrBusyHazard := by
  unfold Obligations.FaultsAreStrayCompletionOrBusyHazard
  intro s f hinv h
  obtain ⟨e, rest, -, hd⟩ := deliver_fault_of_step_fault hinv.pointer1 h
  obtain ⟨i, hi⟩ | ⟨a, ha⟩ := deliver_fault hd
  · obtain ⟨-, hpending, hf⟩ := exec_fault hi
    exact .inl ⟨hf, hpending⟩
  · obtain ⟨hf, hbusy, hpolicy⟩ := hostAccess_fault ha
    exact .inr ⟨hf, hbusy, hpolicy⟩

/-! ## The queue -/

/-- No instruction reads or writes the queue of inputs. -/
theorem exec_inputs {i : Instr} {s t : State} (h : exec i s = .next t) : t.inputs = s.inputs := by
  cases exec_writes h with
  | command _ hd => rw [hd]
  | trigger ht => rw [ht]
  | stop hc => rw [hc]
  | completion hc => rw [hc]
  | reset _ => cases h; simp [resetRegisters, cancelPending_eq]
  | window m => simp
  | sequencer hq => rw [hq]

/-- No step of the host agent reads or writes the queue of inputs. -/
theorem hostAccess_inputs {L : Launch} {a : HostAccess} {s t : State} (h : hostAccess L a s = .next t) :
    t.inputs = s.inputs := by
  have hlanes (sp i hi lo d) : (writeLanes sp i hi lo d s).inputs = s.inputs := by
    obtain ⟨m, e⟩ := writeLanes_frame sp i hi lo d s
    rw [e, withMem_inputs]
  obtain ⟨v, rfl⟩ | ⟨p, hi, lo, d, rfl⟩ | ⟨i, hi, lo, d, rfl⟩ := hostAccess_cases h
  · rfl
  · exact hlanes ..
  · obtain ⟨-, e⟩ | ⟨-, e⟩ := tsWrite_cases L i hi lo d s
    · rw [e]; exact hlanes ..
    · rw [e]

/-- Delivering an input leaves the rest of the queue. -/
theorem deliver_inputs {e : Input} {s t : State} (h : deliver e s = .next t) : t.inputs = s.inputs := by
  obtain ⟨i, u, -, hu, ht⟩ | ⟨a, ha⟩ | rfl := deliver_next h
  · rw [ht]; exact (exec_inputs hu :)
  · exact hostAccess_inputs ha
  · rfl

/-- A step takes the next input, and nothing joins the queue (R13, R75). -/
theorem step_inputs {s t : State} (h : step s = .next t) : t.inputs = s.inputs.tail := by
  obtain ⟨hin, rfl⟩ | ⟨e, rest, hin, -, hd⟩ := step_next h
  · simp [beginStep, hin]
  · rw [deliver_inputs hd, hin]; rfl

/-! ## Runs without completion events -/

/-- A run is safe from a predicate that every step keeps and from which no step faults. -/
theorem runsSafely_of_invariant {P : State → Prop} (hsafe : ∀ s, P s → ∀ f, step s ≠ .fault f)
    (hkeep : ∀ s t, P s → step s = .next t → P t) (k : Nat) {s : State} (h : P s) : RunsSafely k s := by
  unfold RunsSafely
  induction k generalizing s with
  | zero => intro f hf; cases hf
  | succ k ih =>
    intro f hf
    simp only [Host.Core.run] at hf
    split at hf
    · next t ht => exact ih (hkeep s t h ht) f hf
    · next g hg => exact hsafe s h g hg
    · cases hf

/-- The completion event is spelled by its own selector alone (R106). -/
theorem decodeInput_timerFire {w : InputWord} (h : decodeInput w = .ok .timerFire) : w = .event 0b000 := by
  cases w with
  | event sel =>
    simp only [decodeInput, decodeEvent] at h
    split_ifs at h with hsel
    · rw [hsel]
    all_goals cases h
  | portWrite sel d =>
    simp only [decodeInput, decodePortWrite] at h
    split_ifs at h <;> cases h
  | portRead sel =>
    simp only [decodeInput, decodePortRead] at h
    split_ifs at h
    cases h
  | winWrite t =>
    simp only [decodeInput, decodeWinWrite] at h
    split_ifs at h
    cases h
  | winRead i => cases h

/-- An event of the block other than `TimerFire` does not fault where it is delivered. -/
theorem deliver_notTimer_ne_fault {e : Input} (he : e.notTimer = true) (s : State) (f : Fault) : deliver e s ≠ .fault f := by
  intro h
  cases e with
  | op w =>
    obtain ⟨i, hdec, hi⟩ := runInput_fault h
    obtain ⟨rfl, -, -⟩ := exec_fault hi
    rw [decodeInput_timerFire hdec] at he
    cases he
  | mem a => cases he
  | bus a => cases he

/-- The invariant, with no completion event and no host access among the inputs still to come. -/
structure AwaitsNoTimer (s : State) : Prop where
  inv : Inv s
  queue : ∀ e ∈ s.inputs, e.notTimer = true

theorem AwaitsNoTimer.step_ne_fault {s : State} (h : AwaitsNoTimer s) (f : Fault) : step s ≠ .fault f := by
  intro hf
  obtain ⟨e, rest, hin, hd⟩ := deliver_fault_of_step_fault h.inv.pointer1 hf
  exact deliver_notTimer_ne_fault (h.queue e (by simp [hin])) _ f hd

theorem AwaitsNoTimer.step {s t : State} (h : AwaitsNoTimer s) (ht : step s = .next t) : AwaitsNoTimer t where
  inv := everyStepKeepsTheInvariant s t h.inv ht
  queue e he := by
    rw [step_inputs ht] at he
    exact h.queue e (List.mem_of_mem_tail he)

/-- Settles O14: such a queue stays one, and its inputs do not fault. -/
theorem runsWithoutCompletionEventsNeverFault : Obligations.RunsWithoutCompletionEventsNeverFault := by
  unfold Obligations.RunsWithoutCompletionEventsNeverFault
  exact fun k s hinv hqueue =>
    runsSafely_of_invariant (P := AwaitsNoTimer) (fun _ h => h.step_ne_fault) (fun _ _ h => h.step) k ⟨hinv, hqueue⟩

/-! ## The clock of channel 1 and the ports of channel 0 -/

/-- The instruction goes on from every state, and acts on channel 0, its reset line and the outputs alone, in a way that the
rest of the state has no part in. -/
def ActsOnChannel0 (i : Instr) : Prop :=
  ∃ (f : Channel → Channel) (g : Bool → Bool) (o : List Output), ∀ s, exec i s = .next { s with
    ch0 := f s.ch0, outReset0 := g s.outReset0, outputs := s.outputs ++ o }

/-- An instruction that emits nothing and changes channel 0 alone acts on channel 0. -/
theorem actsOnChannel0_of_silent {i : Instr} {f : Channel → Channel} (h : ∀ s, exec i s = .next { s with ch0 := f s.ch0 }) :
    ActsOnChannel0 i :=
  ⟨f, id, [], fun s => by simp [h]⟩

/-- The four ports of channel 0 act on it (R195, R196, R200, R201). -/
theorem adpcm0Port_actsOnChannel0 {i : Instr}
    (h : i = .adpcm0Start ∨ i = .adpcm0Stop ∨ (∃ d, i = .adpcm0AddrLo d) ∨ ∃ d, i = .adpcm0AddrHi d) :
    ActsOnChannel0 i := by
  obtain rfl | rfl | ⟨d, rfl⟩ | ⟨d, rfl⟩ := h
  · exact ⟨fun ch => { ch with held := false }, fun _ => false, _, exec_adpcm0Start⟩
  · exact ⟨fun ch => ⟨clearLowByte ch.romPointer, false, true⟩, fun _ => true, _, exec_adpcm0Stop⟩
  · exact actsOnChannel0_of_silent (f := fun ch => { ch with romPointer := patchLow ch.romPointer d }) fun _ => rfl
  · exact actsOnChannel0_of_silent (f := fun ch => { ch with romPointer := patchHigh ch.romPointer d }) fun _ => rfl

/-- Settles O55: the clock runs the same over what the port leaves, and leaves what the port reads. -/
theorem clockAndChannel0PortsCommute : Obligations.ClockAndChannel0PortsCommute := by
  unfold Obligations.ClockAndChannel0PortsCommute
  intro i l s hi
  obtain ⟨f, g, o, hport⟩ := adpcm0Port_actsOnChannel0 hi
  obtain ⟨δ, hclock⟩ := clockLevel_over Config.launch l s
  have hown : clockLevel Config.launch l s = { clockLevel Config.launch l s with
      ch0 := s.ch0, outReset0 := s.outReset0, outputs := s.outputs ++ δ } := hclock s.ch0 s.outReset0 s.outputs
  have hportFirst : execAll [i, .ctcTo l] s = .next { clockLevel Config.launch l s with
      ch0 := f s.ch0, outReset0 := g s.outReset0, outputs := s.outputs ++ o ++ δ } := by
    simp only [execAll, hport, exec_ctcTo]
    rw [hclock]
  have hclockFirst : execAll [.ctcTo l, i] s = .next { clockLevel Config.launch l s with
      ch0 := f s.ch0, outReset0 := g s.outReset0, outputs := s.outputs ++ δ ++ o } := by
    simp only [execAll, exec_ctcTo, hport]
    rw [hown]
  refine ⟨_, _, hportFirst, hclockFirst, rfl, ?_⟩
  simpa only [List.append_assoc] using List.perm_append_comm.append_left s.outputs

end Sys2Proof.Machine
end

