-- ==== Sys2Proof/Proofs/ResetAndHazards.lean ====
section
/-! PROOFS. The statements of 70_reset_and_hazards.md: the reset state and RESET (R250, R251), the step of a passive block
(R252), and the host's own accesses to the memories while the block may be drawing (R263). -/

namespace Sys2Proof.Machine

/-! ## The host's own accesses -/

/-- A hazard is a busy block under the policy FAULT (R263). -/
theorem hazard_iff {L : Launch} {s : State} : hazard L s = true ↔ s.busy = true ∧ L.busyHazardPolicy = .fault := by
  simp [hazard]

/-- Under ATOMIC, or while the block is idle, there is no hazard (R263). -/
theorem hazard_eq_false {L : Launch} {s : State} (h : L.busyHazardPolicy = .atomic ∨ s.busy = false) :
    hazard L s = false := by
  obtain h | h := h <;> simp [hazard, h]

/-- In a hazard a host read or write of the frame buffer and a host write of the tile source fault. -/
theorem hostAccess_of_hazard {L : Launch} {s : State} (h : hazard L s = true) (p : Nat) (l : Lanes) (d : Word) :
    hostAccess L (.fbRead p l) s = .fault .busyHazard ∧ hostAccess L (.fbWrite p l d) s = .fault .busyHazard ∧
      hostAccess L (.tsWrite p l d) s = .fault .busyHazard :=
  ⟨if_pos h, if_pos h, if_pos h⟩

section
variable {L : Launch} {s : State} (h : hazard L s = false) (p : Nat) (l : Lanes)
include h

theorem hostAccess_fbRead : hostAccess L (.fbRead p l) s =
    .next { s with reply := some (selectLanes l (readWord L s .frameBuffer (fbWordIndex L p))) } :=
  if_neg (by simp [h])

theorem hostAccess_fbWrite (d : Word) : hostAccess L (.fbWrite p l d) s =
    .next (writeLanes .frameBuffer (fbWordIndex L p) (lanesHigh l) (lanesLow l) d s) :=
  if_neg (by simp [h])

theorem hostAccess_tsWrite (d : Word) : hostAccess L (.tsWrite p l d) s =
    .next (tsWrite L p (lanesHigh l) (lanesLow l) d s) :=
  if_neg (by simp [h])

end

theorem tsWrite_ram {L : Launch} {i : Nat} (h : L.tileRom (tsWordIndex L i) = none) (hi lo : Bool) (d : Word) (s : State) :
    tsWrite L i hi lo d s = writeLanes .tileSource (tsWordIndex L i) hi lo d s := by
  simp [tsWrite, h]

theorem tsWrite_rom {L : Launch} {i : Nat} {w : Word} (h : L.tileRom (tsWordIndex L i) = some w) (hi lo : Bool) (d : Word)
    (s : State) : tsWrite L i hi lo d s = s := by
  simp [tsWrite, h]

/-- A read of one lane of a word answers the byte of that lane, the high one at the even address (R65, R81). -/
theorem selectLanes_readWord (L : Launch) (s : State) (sp : Space) (i : Nat) :
    selectLanes .high (readWord L s sp i) = (readByte L s sp (2 * i)).setWidth 16 ∧
      selectLanes .low (readWord L s sp i) = (readByte L s sp (2 * i + 1)).setWidth 16 := by
  simp [selectLanes, readWord]

theorem lanesHigh_iff {l : Lanes} : lanesHigh l = true ↔ l ≠ .low := by cases l <;> decide

theorem lanesLow_iff {l : Lanes} : lanesLow l = true ↔ l ≠ .high := by cases l <;> decide

/-- `t` holds lanes `l` of `d` in word `i` of a space, and every other byte of the space as `s` does. -/
def StoresLanes (L : Launch) (sp : Space) (i : Nat) (l : Lanes) (d : Word) (s t : State) : Prop :=
  (l ≠ .low → readByte L t sp (2 * i) = d.extractLsb' 8 8) ∧
  (l ≠ .high → readByte L t sp (2 * i + 1) = d.extractLsb' 0 8) ∧
  ∀ a, ¬ (l ≠ .low ∧ a = 2 * i ∨ l ≠ .high ∧ a = 2 * i + 1) → readByte L t sp a = readByte L s sp a

theorem writeLanes_storesLanes (L : Launch) (sp : Space) (i : Nat) (l : Lanes) (d : Word) (s : State) :
    StoresLanes L sp i l d s (writeLanes sp i (lanesHigh l) (lanesLow l) d s) := by
  refine ⟨fun hl => ?_, fun hl => ?_, fun a ha => readByte_writeLanes_disabled ?_ d s⟩
  · simp [readByte_writeLanes, lanesHigh_iff.2 hl, hiByte]
  · simp [readByte_writeLanes, lanesLow_iff.2 hl, loByte]
  · rw [lanesHigh_iff, lanesLow_iff]
    exact fun hin => ha hin.2

theorem writeLanes_frameBuffer_frame (i : Nat) (hi lo : Bool) (d : Word) (s : State) :
    writeLanes .frameBuffer i hi lo d s = { s with fb := (writeLanes .frameBuffer i hi lo d s).fb } := by
  obtain ⟨m, e⟩ := writeLanes_frame .frameBuffer i hi lo d s
  rw [e]
  rfl

theorem writeLanes_tileSource_frame (i : Nat) (hi lo : Bool) (d : Word) (s : State) :
    writeLanes .tileSource i hi lo d s = { s with ts := (writeLanes .tileSource i hi lo d s).ts } := by
  obtain ⟨m, e⟩ := writeLanes_frame .tileSource i hi lo d s
  rw [e]
  rfl

/-- Settles O58: by whether there is a hazard, from what a read of lanes answers and what a write of lanes stores. -/
theorem hostAccessWhileBusyFollowsThePolicy : Obligations.HostAccessWhileBusyFollowsThePolicy := by
  unfold Obligations.HostAccessWhileBusyFollowsThePolicy
  intro L s p l d
  refine ⟨fun hfault hbusy => hostAccess_of_hazard (hazard_iff.2 ⟨hbusy, hfault⟩) p l d, fun hpolicy => ?_, rfl, rfl, rfl⟩
  have h := hazard_eq_false hpolicy
  obtain ⟨hhigh, hlow⟩ := selectLanes_readWord L s .frameBuffer (fbWordIndex L p)
  refine ⟨hostAccess_fbRead h p .both, ?_, ?_, ?_, fun w hrom => ?_, fun hram => ?_⟩
  · rw [hostAccess_fbRead h, hhigh]; rfl
  · rw [hostAccess_fbRead h, hlow]; rfl
  · exact ⟨_, hostAccess_fbWrite h p l d, writeLanes_frameBuffer_frame .., writeLanes_storesLanes ..⟩
  · rw [hostAccess_tsWrite h, tsWrite_rom hrom]
  · rw [hostAccess_tsWrite h, tsWrite_ram hram]
    exact ⟨_, rfl, writeLanes_tileSource_frame .., writeLanes_storesLanes ..⟩

/-! ## The passive block -/

/-- Settles O9: with nothing to deliver a step only begins. -/
theorem stepWithoutInputDoesNothing : Obligations.StepWithoutInputDoesNothing := by
  unfold Obligations.StepWithoutInputDoesNothing
  intro s hin
  have hbegin : step s = .next (beginStep s) := by simp [step, deliverNext, hin]
  rw [hbegin, beginStep]

/-! ## Reset -/

/-- After reset no memory lists anything (R251). -/
@[simp] theorem mem_reset (sp : Space) : State.reset.mem sp = [] := by
  rcases sp with (_ | _) | _ | _ <;> rfl

/-- Settles O56: the registers by the table, the memories space by space. -/
theorem resetStateHoldsTheTable : Obligations.ResetStateHoldsTheTable := by
  unfold Obligations.ResetStateHoldsTheTable
  exact ⟨rfl, rfl, rfl, rfl, rfl, rfl, rfl, rfl, rfl, rfl, rfl, mem_reset⟩

theorem Memory.within_nil (size : Nat) : Memory.Within [] size := by
  constructor <;> simp

/-- Settles O12: the memories list nothing, nothing is pending, and the lines are as the channels. -/
theorem resetStateMeetsTheInvariant : Obligations.ResetStateMeetsTheInvariant where
  memories sp := by rw [mem_reset]; exact Memory.within_nil _
  tileRomUnlisted := by simp [State.reset]
  busyPending := rfl
  deadline := by simp [State.reset]
  countBound := by simp [State.reset]
  noRunningCount := rfl
  pointer1 := by simp [State.reset, Channel.reset]
  resetLine0 := rfl
  resetLine1 := rfl
  clockLine := fun _ => rfl

/-- RESET's three lines: the registers hold their levels, and the outputs follow in the order of the table (R45, R250). -/
theorem driveResetLines_eq (s : State) :
    driveVck1 false (driveReset .ch1 true (driveReset .ch0 true s)) = { s with
      outReset0 := true, outReset1 := true, outVck1 := false
      outputs := s.outputs ++ [.rst .ch0 true, .rst .ch1 true, .vck1 false] } := by
  simp [driveVck1, driveReset, emit]

/-- Settles O57: a pending event is cancelled, and the lines append their levels. -/
theorem resetEventSetsEveryRegister : Obligations.ResetEventSetsEveryRegister := by
  unfold Obligations.ResetEventSetsEveryRegister
  intro s
  rw [exec, execReset, cancelPending_eq, driveResetLines_eq]
  rfl

end Sys2Proof.Machine
end
